-- ==== Sys2Proof/Word.lean ====
section
/-! DEFINITION. The word types of PNGCFP (spec/00_scope.md section 5): a byte is 0 to 255, a uint32 is 0 to 2^32 - 1,
a descriptor is 96 bits (spec/30_encoding.md R41). Nothing is signed. -/

namespace Sys2Proof

/-- A byte, "an integer 0 to 255" (00_scope section 5). -/
abbrev Byte := BitVec 8

/-- A uint32, "an integer 0 to 2^32 - 1" (00_scope section 5). -/
abbrev Word := BitVec 32

/-- A command descriptor `D[95:0]` (R41). -/
abbrev Descriptor := BitVec 96

end Sys2Proof
end

