-- ==== Sys2Proof/Config.lean ====
section
/-! DEFINITION. What an implementation fixes and what the spec leaves without a value: the type of the stream
capacities and of the bus mapping (spec/00_scope.md R5, spec/93_implementation_defined.md U10), and the free values (U1,
U9). -/

namespace Sys2Proof

/-- A stream capacity, "any value ≥ 1 or unbounded" (R5, R17). `slots k` is the capacity `k + 1`, so that no value of
this type is a capacity of 0. -/
inductive Capacity where
  | unbounded
  | slots (extra : Nat)
  deriving DecidableEq, Repr

/-- `REGMAP`, the bus mapping of the five ports: whether each is memory-mapped and at which address, and the bus protocol
(R5, R34, U10). The spec gives it no further shape: an address is a number and `protocol` is a label (log entry 20). -/
structure RegMap where
  cmd : Option Nat
  status : Option Nat
  result : Option Nat
  inp : Option Nat
  out : Option Nat
  protocol : Nat
  deriving DecidableEq, Repr

/-- No port is memory-mapped. -/
def RegMap.unmapped : RegMap := ⟨none, none, none, none, none, 0⟩

/-- FREE VALUE (log entry 2): the `k`-th unspecified uint32, "a draw, never a fixed value" (R14, U1, U9). It has no
body, so nothing can be proved about what it is. -/
opaque Config.freeWord : Nat → Word

/-- FREE VALUE (log entry 2): the `k`-th unspecified byte (R24, U9). -/
opaque Config.freeByte : Nat → Byte

/-- FREE VALUE (log entry 2): the `k`-th unspecified natural number (R24, U9). -/
opaque Config.freeNat : Nat → Nat

end Sys2Proof
end

