-- ==== Sys2Proof/Syntax.lean ====
section
/-! DEFINITION. The commands of PNGCFP, one constructor per row of spec/opcode_table.json, their text form
(spec/30_encoding.md R53) and the pseudo-instructions with their expansions (R54). -/

namespace Sys2Proof

/-- The PNGCFP command set, version 1 (R2, R43). A command's input bytes are no part of it: they come on IN. -/
inductive Instr where
  /-- `CRC32 seed, length` (R63). -/
  | crc32 (seed length : Word)
  /-- `FRAME type, length` (R75); the operand `type` is called `tag` here. -/
  | frame (tag length : Word)
  /-- `PACK width, height, depth` (R92). -/
  | pack (width height : Word) (depth : Byte)
  deriving DecidableEq, Repr

/-- The mnemonic, in capitals (R53). -/
def Instr.mnemonic : Instr → String
  | .crc32 _ _ => "CRC32"
  | .frame _ _ => "FRAME"
  | .pack _ _ _ => "PACK"

/-- The operands in the order of the text form (R53). -/
def Instr.operands : Instr → List Nat
  | .crc32 seed length => [seed.toNat, length.toNat]
  | .frame tag length => [tag.toNat, length.toNat]
  | .pack width height depth => [width.toNat, height.toNat, depth.toNat]

/-- The textual form of a command: the mnemonic, then the operands in decimal separated by commas (R53). -/
def Instr.toText (i : Instr) : String :=
  i.mnemonic ++ " " ++ String.intercalate ", " (i.operands.map toString)

/-- The four characters of a tag packed into a uint32, the first in bits 31:24 (R48). -/
def tagOfCodes (c0 c1 c2 c3 : Byte) : Word := c0 ++ c1 ++ c2 ++ c3

/-- `IHDR`, `PLTE`, `IDAT`, `IEND`: the four tags the document uses, with the ASCII codes of R48. -/
def tagIHDR : Word := tagOfCodes 0x49 0x48 0x44 0x52
def tagPLTE : Word := tagOfCodes 0x50 0x4C 0x54 0x45
def tagIDAT : Word := tagOfCodes 0x49 0x44 0x41 0x54
def tagIEND : Word := tagOfCodes 0x49 0x45 0x4E 0x44

/-- Pseudo-instruction `FRAME "abcd", length` (R54). -/
def Instr.frameText (c0 c1 c2 c3 : Byte) (length : Word) : Instr := .frame (tagOfCodes c0 c1 c2 c3) length

/-- Pseudo-instruction `CRC0 length` (R54). -/
def Instr.crc0 (length : Word) : Instr := .crc32 0 length

/-- Pseudo-instruction `CRCC length` (R54): `r` is the value the host last read from RESULT, and the host supplies it. -/
def Instr.crcc (r length : Word) : Instr := .crc32 r length

end Sys2Proof
end

