-- ==== Sys2Proof/WellFormed.lean ====
section
/-! DEFINITION. Which commands are legal (spec/30_encoding.md R44 to R46, R52 checks 5 and 6; the "constraints" of the
PACK row of spec/opcode_table.json). -/

namespace Sys2Proof

/-- The document's enumerated set of bit depths, "1, 2, 4, 8, 16" (R46). -/
def legalDepths : List Byte := [1, 2, 4, 8, 16]

/-- A command is well formed when no operand check of R52 refuses it. Every operand of `CRC32` and `FRAME` is legal
(R44, R45); `PACK` needs a legal depth, a width and a height that are not 0. -/
abbrev Instr.WellFormed : Instr → Prop
  | .crc32 _ _ => True
  | .frame _ _ => True
  | .pack width height depth => depth ∈ legalDepths ∧ width ≠ 0 ∧ height ≠ 0

/-- `Instr.WellFormed` as a Bool. -/
def Instr.isWellFormed : Instr → Bool
  | .crc32 _ _ => true
  | .frame _ _ => true
  | .pack width height depth => legalDepths.contains depth && width != 0 && height != 0

end Sys2Proof
end

