-- ==== Sys2Proof/Decode.lean ====
section
/-! DEFINITION. The 96-bit descriptor: its fields (spec/30_encoding.md R41, R42), its decoder (R43, R49, R50, R52), the
fault codes a refusal carries (spec/60_exceptions.md R113), and the encoder (section 4 of 30_encoding.md). -/

namespace Sys2Proof

/-- The five faults of R113, by name. -/
inductive FaultCode where
  | illegalOp
  | reservedNonzero
  | badFilter
  | badDepth
  | badGeometry
  deriving DecidableEq, Repr

/-- The 4-bit code that `cause` holds (R113). -/
def FaultCode.code : FaultCode → BitVec 4
  | .illegalOp => 1
  | .reservedNonzero => 2
  | .badFilter => 3
  | .badDepth => 4
  | .badGeometry => 5

/-- `OP`, `D[7:0]` (R42). -/
def fieldOp (d : Descriptor) : Byte := d.extractLsb' 0 8

/-- `DEPTH`, `D[15:8]` (R42). -/
def fieldDepth (d : Descriptor) : Byte := d.extractLsb' 8 8

/-- `FILTER`, `D[23:16]` (R42). -/
def fieldFilter (d : Descriptor) : Byte := d.extractLsb' 16 8

/-- `RSV`, `D[31:24]` (R42). -/
def fieldRsv (d : Descriptor) : Byte := d.extractLsb' 24 8

/-- `W1`, operand A, `D[63:32]` (R41). -/
def fieldA (d : Descriptor) : Word := d.extractLsb' 32 32

/-- `W2`, operand B, `D[95:64]` (R41). -/
def fieldB (d : Descriptor) : Word := d.extractLsb' 64 32

/-- The opcodes (R43). -/
def opCrc32 : Byte := 0x01
def opFrame : Byte := 0x02
def opPack : Byte := 0x03

/-- Reads a descriptor: which command it is and its operands, or the code it is refused with. These are checks 1 to 4 of
R52 in their order, the ones the match and mask of the opcode table express; checks 5 and 6 look at the operand values
of `PACK` (the table's "constraints") and are made by that command's own meaning (`Machine.packRefusal`), which comes
next in the same order. -/
def decode (d : Descriptor) : Except FaultCode Instr :=
  if fieldOp d ≠ opCrc32 ∧ fieldOp d ≠ opFrame ∧ fieldOp d ≠ opPack then .error .illegalOp
  else if fieldRsv d ≠ 0 then .error .reservedNonzero
  else if fieldOp d = opPack then
    if fieldFilter d ≠ 0 then .error .badFilter
    else .ok (.pack (fieldA d) (fieldB d) (fieldDepth d))
  else if fieldDepth d ≠ 0 ∨ fieldFilter d ≠ 0 then .error .reservedNonzero
  else if fieldOp d = opCrc32 then .ok (.crc32 (fieldA d) (fieldB d))
  else .ok (.frame (fieldA d) (fieldB d))

/-- `D = (W2 << 64) | (W1 << 32) | W0` (section 4 of 30_encoding.md). -/
def descriptorOfWords (w0 w1 w2 : Word) : Descriptor := w2 ++ w1 ++ w0

/-- `W0` from its four fields, `RSV` in bits 31:24 down to `OP` in bits 7:0 (R42). -/
def controlWord (op depth filter rsv : Byte) : Word := rsv ++ filter ++ depth ++ op

/-- The descriptor of a command (section 4 of 30_encoding.md). The FILTER field has no operand: 0 is written (R53). -/
def encode : Instr → Descriptor
  | .crc32 seed length => descriptorOfWords (controlWord opCrc32 0 0 0) seed length
  | .frame tag length => descriptorOfWords (controlWord opFrame 0 0 0) tag length
  | .pack width height depth => descriptorOfWords (controlWord opPack depth 0 0) width height

/-- The command this decoder reads from a descriptor whose bits are `w`, numbered as spec/opcode_table.json numbers
them; bits from `nbits` up are 0. -/
def decodeTableWord (nbits w : Nat) : Option Instr :=
  if nbits ≤ 96 then (decode (BitVec.ofNat 96 (w % 2 ^ nbits))).toOption else none

end Sys2Proof
end

