-- ==== Sys2Proof/Machine/State.lean ====
section
/-! DEFINITION. The state of PNGCFP as plain data: the block's fifteen elements (spec/10_state.md R9), the offer on CMD,
the open parameters, the host's side of the ports, and whose turn it is (spec/00_scope.md R7). -/

namespace Sys2Proof.Machine

/-- The three values of `st` (R12). -/
inductive Status where
  | idle
  | busy
  | fault
  deriving DecidableEq, Repr

/-- The complete state of the block, the elements of R9 in their order and nothing else. -/
structure Block where
  /-- `st`: what the block is doing (R12). -/
  st : Status
  /-- `cause`: why `st = FAULT` (R13). -/
  cause : BitVec 4
  /-- `rv`: `result` holds the CRC of the latest `CRC32` command (R14). -/
  rv : Bool
  /-- `result`: return value of `crc32` (R14). -/
  result : Word
  /-- `op`: latched opcode (R10). -/
  op : Byte
  /-- `a`: latched operand A, the seed, type or width (R10). -/
  a : Word
  /-- `b`: latched operand B, the length, payload length or height (R10). -/
  b : Word
  /-- `depth`: latched bit depth (R10). -/
  depth : Byte
  /-- `filter`: latched filter-type byte (R10). -/
  filter : Byte
  /-- `acc`: running CRC register, before the final XOR (R15). -/
  acc : Word
  /-- `n`: bytes processed by `CRC32`, bytes emitted by `FRAME` (R16). -/
  n : Nat
  /-- `row`: index of the scanline being emitted (R16). -/
  row : Nat
  /-- `col`: position inside the current output row, 0 is the filter byte (R16). -/
  col : Nat
  /-- `in_q`: bytes offered on IN and not yet consumed, first to be consumed first (R17). -/
  inQ : List Byte
  /-- `out_q`: bytes emitted on OUT and not yet taken, first to be taken first (R17). -/
  outQ : List Byte
  deriving DecidableEq, Repr

/-- The host's moves, the complete list of R141. -/
inductive HostMove where
  /-- `H-ISSUE(D)`: offer a descriptor on CMD. -/
  | issue (d : Descriptor)
  /-- `H-OFFER(x)`: offer a byte on IN. -/
  | offer (x : Byte)
  /-- `H-TAKE`: take a byte from OUT. -/
  | take
  /-- `H-STATUS`: read STATUS. -/
  | readStatus
  /-- `H-RESULT`: read RESULT. -/
  | readResult
  /-- `H-RESET`: assert reset. -/
  | reset
  deriving DecidableEq, Repr

/-- Whose turn the next step is (R7, log entry 1). -/
inductive Turn where
  | block
  | host (m : HostMove)
  deriving DecidableEq, Repr

/-- The whole machine: the block, what lies between it and the host, and the host. -/
structure State where
  /-- The block (R9). -/
  block : Block
  /-- The descriptor on offer on CMD and not yet taken, at most one (R21, R136, R141). -/
  offer : Option Descriptor
  /-- `IN_DEPTH`, an open parameter that no step changes (R5, log entry 3). -/
  inDepth : Capacity
  /-- `OUT_DEPTH`, an open parameter that no step changes (R5, log entry 3). -/
  outDepth : Capacity
  /-- `REGMAP`, an open parameter that no step reads or changes (R5, R34, log entry 20). -/
  regMap : RegMap
  /-- The turns to come; when it is empty the block moves (log entry 1). -/
  schedule : List Turn
  /-- The bytes the host has taken from OUT, oldest first (R28, log entry 5). -/
  taken : List Byte
  /-- The values the host has read from STATUS, oldest first (R19, log entry 5). -/
  statusReads : List Word
  /-- The values the host has read from RESULT, oldest first (R20, log entry 5). -/
  resultReads : List Word
  /-- How many free values have been drawn; the model's own field (log entry 2). -/
  draws : Nat
  deriving DecidableEq, Repr

/-- Why a step can stop the model. No command and no host move of the spec ever does: the spec's five faults are
states (`Status.fault`), and waiting is a state that does not change. -/
inductive Fault where
  /-- Raised by the block's turn when `st = BUSY` and the opcode latch holds no command's opcode. The spec gives no step
  for such a state and no run reaches it (R12, R112: `BUSY` is entered by accepting a command). SAFE: the model stops
  where the spec is silent (log entry 6). -/
  | noCommandLatched
  deriving DecidableEq, Repr

/-- Why the model gives an instruction no meaning. -/
inductive Refusal where
  /-- An instruction with no meaning yet, rejected by name in `exec`. SAFE: nothing is claimed of it. No instruction of
  this model is. -/
  | notModelled (mnemonic : String)
  deriving DecidableEq, Repr

/-- The block right after reset (R24). The elements the table calls unspecified hold 0 here: DESIGN CHOICE, UNSAFE (log
entry 4). -/
def Block.reset : Block where
  st := .idle
  cause := 0
  rv := false
  result := 0
  op := 0
  a := 0
  b := 0
  depth := 0
  filter := 0
  acc := 0
  n := 0
  row := 0
  col := 0
  inQ := []
  outQ := []

/-- The machine right after reset with the three open parameters given (R5, R24). -/
def State.resetWith (inDepth outDepth : Capacity) (regMap : RegMap) : State where
  block := Block.reset
  offer := none
  inDepth := inDepth
  outDepth := outDepth
  regMap := regMap
  schedule := []
  taken := []
  statusReads := []
  resultReads := []
  draws := 0

/-- The machine right after reset, both streams unbounded and no port memory-mapped (R24; DESIGN CHOICE for the open
parameters, log entries 3 and 20). -/
def State.reset : State := State.resetWith .unbounded .unbounded .unmapped

end Sys2Proof.Machine
end

