-- ==== Sys2Proof/Machine/Operands.lean ====
section
/-! DEFINITION. The operand forms and the quantities computed from operands: `be32` (spec/00_scope.md section 5,
spec/20_memory.md R29), half-open ranges, the operand checks of `PACK` (spec/30_encoding.md R52 checks 5 and 6) and its
geometry (spec/42_pack.md R84 to R86). -/

namespace Sys2Proof.Machine

/-- `be32(v)[k] = v[31 - 8k : 24 - 8k]` for `k` in 0..3 (00_scope section 5). DESIGN CHOICE, UNSAFE (log entry 16): for
a greater `k`, which no rule forms (R83), the last byte. -/
def be32Byte (v : Word) (k : Nat) : Byte := v.extractLsb' (24 - 8 * k) 8

/-- `be32(v)`: the four bytes of `v`, most significant first (R29). -/
def be32 (v : Word) : List Byte := [be32Byte v 0, be32Byte v 1, be32Byte v 2, be32Byte v 3]

/-- `s[lo .. hi)`: the elements from `lo` up to but not including `hi` (00_scope section 5). -/
def slice (s : List Byte) (lo hi : Nat) : List Byte := (s.drop lo).take (hi - lo)

/-- `byteWidth = (width × bitDepth + 7) div 8`, exact (R84, R86). -/
def byteWidth (width bitDepth : Nat) : Nat := (width * bitDepth + 7) / 8

/-- `rowStride = byteWidth + 1` (R85). -/
def rowStride (width bitDepth : Nat) : Nat := byteWidth width bitDepth + 1

/-- `bw` of the latched `PACK` command, from `a` and `depth` (R92). -/
def latchedByteWidth (blk : Block) : Nat := byteWidth blk.a.toNat blk.depth.toNat

/-- Checks 5 and 6 of R52: the code a `PACK` with these operands is refused with, if any. The depth is looked at first
(R115). -/
def packRefusal (width height : Word) (depth : Byte) : Option FaultCode :=
  if ¬ (depth = 1 ∨ depth = 2 ∨ depth = 4 ∨ depth = 8 ∨ depth = 16) then some .badDepth
  else if width = 0 ∨ height = 0 then some .badGeometry
  else none

/-- How many input bytes a command consumes (R36, R92). DESIGN CHOICE, UNSAFE (log entry 16): for a `PACK` with a width or
height of 0 or an illegal depth, which the block refuses, the spec gives no number and this function takes the formula's. -/
def need : Instr → Nat
  | .crc32 _ length => length.toNat
  | .frame _ length => length.toNat
  | .pack width height depth => byteWidth width.toNat depth.toNat * height.toNat

/-- How many output bytes a command pushes (R63, R75, R92). DESIGN CHOICE, UNSAFE (log entry 16): for a `PACK` with a width
or height of 0 or an illegal depth, which the block refuses, the spec gives no number and this function takes the formula's
(91_not_in_source N19: it must not be assumed); for a width of 0 that is `height`. -/
def outLength : Instr → Nat
  | .crc32 _ _ => 0
  | .frame _ length => length.toNat + 12
  | .pack width height depth => rowStride width.toNat depth.toNat * height.toNat

end Sys2Proof.Machine
end

