-- ==== Sys2Proof/Machine/Flags.lean ====
section
/-! DEFINITION. The host-visible registers: the STATUS word (spec/10_state.md R19) and the value of RESULT (R20). -/

namespace Sys2Proof.Machine

/-- The field `ST`: 0 = IDLE, 1 = BUSY, 2 = FAULT (R19). -/
def statusField : Status → BitVec 2
  | .idle => 0
  | .busy => 1
  | .fault => 2

/-- STATUS as read: `ST` in bits 1:0, 3:2 zero, `CAUSE` in 7:4, `RV` in bit 8, 31:9 zero (R19). -/
def statusWord (blk : Block) : Word :=
  (0 : BitVec 23) ++ BitVec.ofBool blk.rv ++ blk.cause ++ (0 : BitVec 2) ++ statusField blk.st

/-- RESULT as read: `result` when `rv = 1`, else the next unspecified uint32 (R20). -/
def resultWord (blk : Block) (draw : Nat) : Word := if blk.rv then blk.result else Config.freeWord draw

/-- How many free values a read of RESULT draws: one when `rv = 0` (R14). -/
def resultDraws (blk : Block) : Nat := if blk.rv then 0 else 1

end Sys2Proof.Machine
end

