-- ==== Sys2Proof/Machine/Ops.lean ====
section
/-! DEFINITION. The named operations every meaning is built from: the two streams (spec/20_memory.md R27, R28), latching
a descriptor (spec/60_exceptions.md R112), taking the fault (R114), the reset event (spec/70_reset_and_hazards.md R128),
and how a block step becomes a step of the machine. -/

namespace Sys2Proof.Machine

/-- Whether one more element fits a queue of length `len`: `len < DEPTH` (R27, R28). -/
def hasRoom (depth : Capacity) (len : Nat) : Bool :=
  match depth with
  | .unbounded => true
  | .slots extra => decide (len < extra + 1)

/-- `InPop()`: the first byte of `in_q` and the block without it; none when `in_q` is empty (R27). -/
def inPop (blk : Block) : Option (Byte × Block) :=
  match blk.inQ with
  | [] => none
  | x :: rest => some (x, { blk with inQ := rest })

/-- `OutPush(x)`: the block with `x` at the end of `out_q`; none when `out_q` is full (R28). -/
def outPush (outDepth : Capacity) (x : Byte) (blk : Block) : Option Block :=
  if hasRoom outDepth blk.outQ.length then some { blk with outQ := blk.outQ ++ [x] } else none

/-- The writes of `S-ACCEPT` common to all commands (R112): the five latches, the three counters, `st`. -/
def latch (op : Byte) (a b : Word) (depth filter : Byte) (blk : Block) : Block :=
  { blk with st := .busy, op := op, a := a, b := b, depth := depth, filter := filter, n := 0, row := 0, col := 0 }

/-- TAKING THE FAULT, `S-ACCEPT-FAULT` (R114): `st <- FAULT; cause <- c`, nothing else. -/
def faultEntry (c : FaultCode) (blk : Block) : Block := { blk with st := .fault, cause := c.code }

/-- LEAVING THE FAULT, and every other state: the reset event (R128). The elements R24 calls unspecified become free
values, drawn from `draw` on; the queues are emptied. It is the block's only return from a fault (R118). -/
def resetBlock (draw : Nat) : Block where
  st := .idle
  cause := 0
  rv := false
  result := Config.freeWord draw
  op := Config.freeByte draw
  a := Config.freeWord (draw + 1)
  b := Config.freeWord (draw + 2)
  depth := Config.freeByte (draw + 1)
  filter := Config.freeByte (draw + 2)
  acc := Config.freeWord (draw + 3)
  n := Config.freeNat draw
  row := Config.freeNat (draw + 1)
  col := Config.freeNat (draw + 2)
  inQ := []
  outQ := []

/-- How far the reset event advances the draw counter. -/
def resetDraws : Nat := 4

/-- The machine with another block. -/
def withBlock (s : State) (blk : Block) : State := { s with block := blk }

/-- The machine after the block took the offer and became `blk`: "The offer is consumed" (R112, R114). -/
def takeOffer (s : State) (blk : Block) : State := { s with block := blk, offer := none }

/-- The block takes the step given, or, when it has no enabled step, WAITS with all state unchanged (R117, log entry
1). -/
def advance (s : State) (next : Option Block) : Host.Outcome State Fault Refusal :=
  match next with
  | some blk => .next (withBlock s blk)
  | none => .next s

/-- `S-ACCEPT-FAULT` as a step of the machine (R114). -/
def refuseOffer (s : State) (c : FaultCode) : Host.Outcome State Fault Refusal :=
  .next (takeOffer s (faultEntry c s.block))

/-- One block step of a command: accept it when IDLE, otherwise go on with the command in progress, and in FAULT do
nothing (R12, R112, R118). `accepted` is what accepting gives, `running` the next byte or done step if one is enabled. -/
def commandStep (s : State) (accepted : Host.Outcome State Fault Refusal) (running : Option Block) :
    Host.Outcome State Fault Refusal :=
  match s.block.st with
  | .idle => accepted
  | .busy => advance s running
  | .fault => .next s

end Sys2Proof.Machine
end

