-- ==== Sys2Proof/Machine/Checksum.lean ====
section
/-! DEFINITION. The Checksum Engine (spec/40_crc32.md R55 to R62): the polynomial, the table `T`, the byte step `upd`, its
bitwise form, and the function `crc32`. -/

namespace Sys2Proof.Machine

/-- The polynomial in reflected form (R55). -/
def poly : Word := 0xEDB88320

/-- The initial XOR mask and the final XOR mask (R55). -/
def crcMask : Word := 0xFFFFFFFF

/-- One shift-and-conditionally-XOR round (R56, R59). -/
def crcRound (c : Word) : Word := if c.getLsbD 0 then (c >>> 1) ^^^ poly else c >>> 1

/-- `k` rounds. -/
def crcRounds : Nat → Word → Word
  | 0, c => c
  | k + 1, c => crcRounds k (crcRound c)

/-- The table entry `T[i]`: eight rounds from `zext_32(i)` (R56). A constant of the block, not state (R18). -/
def crcTable (i : Byte) : Word := crcRounds 8 (i.zeroExtend 32)

/-- `upd(c, x) = T[(c ^ zext_32(x))[7:0]] ^ (c >> 8)` (R57). -/
def upd (c : Word) (x : Byte) : Word := crcTable ((c ^^^ x.zeroExtend 32).extractLsb' 0 8) ^^^ (c >>> 8)

/-- The bitwise form of `upd` (R59). -/
def updBitwise (c : Word) (x : Byte) : Word := crcRounds 8 (c ^^^ x.zeroExtend 32)

/-- `fold(upd, c, s)`: one `upd` per byte, lowest offset first (R58). -/
def crcFold (c : Word) (s : List Byte) : Word := s.foldl upd c

/-- `crc32(seed, s) = fold(upd, seed ^ 0xFFFFFFFF, s) ^ 0xFFFFFFFF` (R58). -/
def crc32 (seed : Word) (s : List Byte) : Word := crcFold (seed ^^^ crcMask) s ^^^ crcMask

end Sys2Proof.Machine
end

