-- ==== Sys2Proof/Machine/Crc32.lean ====
section
/-! DEFINITION. The CRC32 command (spec/40_crc32.md R63 to R68): its accept and its two steps. -/

namespace Sys2Proof.Machine

/-- Accept of `CRC32` (R112 with R64): the latches and counters, `acc <- a ^ 0xFFFFFFFF`, `rv <- 0`. -/
def crc32Accept (seed length : Word) (blk : Block) : Block :=
  { latch opCrc32 seed length 0 0 blk with acc := seed ^^^ crcMask, rv := false }

/-- `S-CRC-BYTE` (R65); none while `in_q` is empty. -/
def crcByte (blk : Block) : Option Block :=
  match inPop blk with
  | some (x, rest) => some { rest with acc := upd blk.acc x, n := blk.n + 1 }
  | none => none

/-- `S-CRC-DONE` (R66). -/
def crcDone (blk : Block) : Block := { blk with result := blk.acc ^^^ crcMask, rv := true, st := .idle }

/-- The step of a running `CRC32` command, if one is enabled (R65, R66). -/
def crc32Running (blk : Block) : Option Block :=
  if blk.op = opCrc32 then
    if blk.n < blk.b.toNat then crcByte blk
    else if blk.n = blk.b.toNat then some (crcDone blk)
    else none
  else none

/-- `CRC32 seed, length` (R63): one block step of the command. -/
def execCrc32 (seed length : Word) (s : State) : Host.Outcome State Fault Refusal :=
  commandStep s (.next (takeOffer s (crc32Accept seed length s.block))) (crc32Running s.block)

end Sys2Proof.Machine
end

