-- ==== Sys2Proof/Machine/Frame.lean ====
section
/-! DEFINITION. The Chunk Framer and the FRAME command (spec/41_frame.md R69 to R83). -/

namespace Sys2Proof.Machine

/-- `frame(type, payload) = be32(L) ∥ be32(type) ∥ payload ∥ be32(crc32(0, be32(type) ∥ payload))` (R69), for a payload
whose length `L` fits 32 bits. DESIGN CHOICE, UNSAFE (log entry 16): for a longer payload, which R69 does not cover, the
length field holds the low 32 bits of `L`. -/
def frame (tag : Word) (payload : List Byte) : List Byte :=
  be32 (BitVec.ofNat 32 payload.length) ++ be32 tag ++ payload ++ be32 (crc32 0 (be32 tag ++ payload))

/-- Accept of `FRAME` (R112 with R76): the latches and counters, `acc <- 0xFFFFFFFF`. -/
def frameAccept (tag length : Word) (blk : Block) : Block :=
  { latch opFrame tag length 0 0 blk with acc := crcMask }

/-- `S-FRM-LEN` (R77): push a length byte; the CRC does not cover it. -/
def frmLen (outDepth : Capacity) (blk : Block) : Option Block :=
  outPush outDepth (be32Byte blk.b blk.n) { blk with n := blk.n + 1 }

/-- `S-FRM-TYPE` (R78): push a tag byte, which enters the CRC. -/
def frmType (outDepth : Capacity) (blk : Block) : Option Block :=
  outPush outDepth (be32Byte blk.a (blk.n - 4))
    { blk with acc := upd blk.acc (be32Byte blk.a (blk.n - 4)), n := blk.n + 1 }

/-- `S-FRM-PAY` (R79): copy a payload byte, which enters the CRC; none while `in_q` is empty or `out_q` is full. -/
def frmPay (outDepth : Capacity) (blk : Block) : Option Block :=
  match inPop blk with
  | some (x, rest) => outPush outDepth x { rest with acc := upd blk.acc x, n := blk.n + 1 }
  | none => none

/-- `S-FRM-CRC` (R80): push a byte of the final CRC; `acc` is not changed. -/
def frmCrc (outDepth : Capacity) (blk : Block) : Option Block :=
  outPush outDepth (be32Byte (blk.acc ^^^ crcMask) (blk.n - 8 - blk.b.toNat)) { blk with n := blk.n + 1 }

/-- `S-FRM-DONE` (R81). -/
def frmDone (blk : Block) : Block := { blk with st := .idle }

/-- The step of a running `FRAME` command, if one is enabled (R77 to R81). -/
def frameRunning (outDepth : Capacity) (blk : Block) : Option Block :=
  if blk.op = opFrame then
    if blk.n < 4 then frmLen outDepth blk
    else if blk.n < 8 then frmType outDepth blk
    else if blk.n < 8 + blk.b.toNat then frmPay outDepth blk
    else if blk.n < 12 + blk.b.toNat then frmCrc outDepth blk
    else if blk.n = 12 + blk.b.toNat then some (frmDone blk)
    else none
  else none

/-- `FRAME type, length` (R75): one block step of the command. -/
def execFrame (tag length : Word) (s : State) : Host.Outcome State Fault Refusal :=
  commandStep s (.next (takeOffer s (frameAccept tag length s.block))) (frameRunning s.outDepth s.block)

end Sys2Proof.Machine
end

