-- ==== Sys2Proof/Machine/Pack.lean ====
section
/-! DEFINITION. The Scanline Filter/Packer and the PACK command (spec/42_pack.md R84 to R97). -/

namespace Sys2Proof.Machine

/-- The filter-type byte, "the None filter" (R88). -/
def filterNone : Byte := 0x00

/-- `row_i = [0x00] ∥ pixels[i × bw .. (i + 1) × bw)` (R87). -/
def packRow (pixels : List Byte) (bw i : Nat) : List Byte := filterNone :: slice pixels (i * bw) ((i + 1) * bw)

/-- `pack(pixels, width, height, bitDepth) = row_0 ∥ … ∥ row_(height-1)` (R87). R87 gives it for `width` and `height` of
at least 1, a legal `bitDepth` and a buffer of at least `height × bw` bytes. DESIGN CHOICE, UNSAFE (log entry 16): outside
that range the spec gives no value (91_not_in_source N19: the formula's must not be assumed), and this function takes the
formula's. -/
def pack (pixels : List Byte) (width height bitDepth : Nat) : List Byte :=
  (List.range height).flatMap (packRow pixels (byteWidth width bitDepth))

/-- Accept of `PACK` (R112 with R93): the latches and counters, nothing further. -/
def packAccept (width height : Word) (depth : Byte) (blk : Block) : Block :=
  latch opPack width height depth filterNone blk

/-- `S-PCK-FILT` (R94): push the latched filter byte. -/
def pckFilt (outDepth : Capacity) (blk : Block) : Option Block :=
  outPush outDepth blk.filter { blk with col := 1 }

/-- Where the position goes after a pixel byte (R95): the next row after the last byte of a row. -/
def pckNext (blk : Block) : Block :=
  if blk.col = latchedByteWidth blk then { blk with row := blk.row + 1, col := 0 }
  else { blk with col := blk.col + 1 }

/-- `S-PCK-DATA` (R95): copy a pixel byte; none while `in_q` is empty or `out_q` is full. -/
def pckData (outDepth : Capacity) (blk : Block) : Option Block :=
  match inPop blk with
  | some (x, rest) => outPush outDepth x (pckNext rest)
  | none => none

/-- `S-PCK-DONE` (R96). -/
def pckDone (blk : Block) : Block := { blk with st := .idle }

/-- The step of a running `PACK` command, if one is enabled (R94 to R96). -/
def packRunning (outDepth : Capacity) (blk : Block) : Option Block :=
  if blk.op = opPack then
    if blk.row < blk.b.toNat then
      if blk.col = 0 then pckFilt outDepth blk
      else if blk.col ≤ latchedByteWidth blk then pckData outDepth blk
      else none
    else if blk.row = blk.b.toNat then some (pckDone blk)
    else none
  else none

/-- What offering `PACK` to an IDLE block gives: the fault its operands raise (R52 checks 5 and 6, R114), or accept. -/
def packOffer (width height : Word) (depth : Byte) (s : State) : Host.Outcome State Fault Refusal :=
  match packRefusal width height depth with
  | some c => refuseOffer s c
  | none => .next (takeOffer s (packAccept width height depth s.block))

/-- `PACK width, height, depth` (R92): one block step of the command. -/
def execPack (width height : Word) (depth : Byte) (s : State) : Host.Outcome State Fault Refusal :=
  commandStep s (packOffer width height depth s) (packRunning s.outDepth s.block)

end Sys2Proof.Machine
end

