-- ==== Sys2Proof/Machine/Dispatch.lean ====
section
/-! DEFINITION. One arm per command: `exec i s` is one block step of the command `i` (spec/opcode_table.json). -/

namespace Sys2Proof.Machine

def exec (i : Instr) (s : State) : Host.Outcome State Fault Refusal :=
  match i with
  | .crc32 seed length => Sys2Proof.Machine.execCrc32 seed length s
  | .frame tag length => Sys2Proof.Machine.execFrame tag length s
  | .pack width height depth => Sys2Proof.Machine.execPack width height depth s

end Sys2Proof.Machine
end

