-- ==== Sys2Proof/Machine/HostMoves.lean ====
section
/-! DEFINITION. The ports (spec/20_memory.md R34) and the host's six moves (spec/70_reset_and_hazards.md R141): when each
is enabled and what it does. -/

namespace Sys2Proof.Machine

/-- The five ports of R34. Their bus addresses are the open parameter REGMAP, on which no rule depends. -/
inductive Port where
  | cmd
  | status
  | result
  | inp
  | out
  deriving DecidableEq, Repr

/-- Port numbers, "labels of this spec" (R34). -/
def portNumber : Port → Nat
  | .cmd => 0
  | .status => 1
  | .result => 2
  | .inp => 3
  | .out => 4

/-- Port widths in bits (R34). -/
def portWidth : Port → Nat
  | .cmd => 96
  | .status => 32
  | .result => 32
  | .inp => 8
  | .out => 8

/-- Whether the host writes the port; the others it reads (R34). -/
def portIsWritten : Port → Bool
  | .cmd => true
  | .status => false
  | .result => false
  | .inp => true
  | .out => false

/-- The port a move uses; reset "is not a port with data" (R34). -/
def movePort : HostMove → Option Port
  | .issue _ => some .cmd
  | .offer _ => some .inp
  | .take => some .out
  | .readStatus => some .status
  | .readResult => some .result
  | .reset => none

/-- The address the open parameter REGMAP gives a port, if the port is memory-mapped (R34). -/
def busAddress (map : RegMap) : Port → Option Nat
  | .cmd => map.cmd
  | .status => map.status
  | .result => map.result
  | .inp => map.inp
  | .out => map.out

/-- The bus address a host move goes to, if it has one. The model names the port, so no step asks for it (R34). -/
def moveAddress (m : HostMove) (s : State) : Option Nat := (movePort m).bind (busAddress s.regMap)

/-- When a host move is enabled (R141). Issuing needs that no offer is outstanding (log entry 7). -/
def hostEnabled (m : HostMove) (s : State) : Bool :=
  match m with
  | .issue _ => s.offer.isNone
  | .offer _ => hasRoom s.inDepth s.block.inQ.length
  | .take => !s.block.outQ.isEmpty
  | .readStatus => true
  | .readResult => true
  | .reset => true

/-- `H-ISSUE(D)`: the descriptor waits on CMD (R21, R141). -/
def hostIssue (d : Descriptor) (s : State) : State := { s with offer := some d }

/-- `H-OFFER(x)`: `in_q <- in_q ∥ [x]` (R27). -/
def hostOffer (x : Byte) (s : State) : State := { s with block := { s.block with inQ := s.block.inQ ++ [x] } }

/-- `H-TAKE`: `out_q <- rest`, the host receives the first byte (R28). -/
def hostTake (s : State) : State :=
  match s.block.outQ with
  | [] => s
  | x :: rest => { s with block := { s.block with outQ := rest }, taken := s.taken ++ [x] }

/-- `H-STATUS`: no effect on the block; the host receives the STATUS word (R19, R33). -/
def hostReadStatus (s : State) : State := { s with statusReads := s.statusReads ++ [statusWord s.block] }

/-- `H-RESULT`: no effect on the block; the host receives `result`, or an unspecified uint32 when `rv = 0` (R20). -/
def hostReadResult (s : State) : State :=
  { s with
    resultReads := s.resultReads ++ [resultWord s.block s.draws]
    draws := s.draws + resultDraws s.block }

/-- `H-RESET`: the block as R24 says, the outstanding offer withdrawn (R128). -/
def hostReset (s : State) : State :=
  { s with block := resetBlock s.draws, offer := none, draws := s.draws + resetDraws }

/-- The effect of an enabled host move (R141). -/
def hostMove (m : HostMove) (s : State) : State :=
  match m with
  | .issue d => hostIssue d s
  | .offer x => hostOffer x s
  | .take => hostTake s
  | .readStatus => hostReadStatus s
  | .readResult => hostReadResult s
  | .reset => hostReset s

end Sys2Proof.Machine
end

