-- ==== Sys2Proof/Machine/Turns.lean ====
section
/-! DEFINITION. One turn of the machine: the block takes the descriptor on offer or goes on with the command in progress
(spec/60_exceptions.md R112, R114, R117, R118), or the host makes its move (spec/70_reset_and_hazards.md R141). -/

namespace Sys2Proof.Machine

/-- The command in progress, read back from the latches (R10): BUSY means it was accepted and has not completed. -/
def runningInstr (blk : Block) : Option Instr :=
  if blk.op = opCrc32 then some (.crc32 blk.a blk.b)
  else if blk.op = opFrame then some (.frame blk.a blk.b)
  else if blk.op = opPack then some (.pack blk.a blk.b blk.depth)
  else none

/-- The block in IDLE: `S-ACCEPT` or `S-ACCEPT-FAULT` on the descriptor on offer; nothing to do without one (R112,
R114). -/
def offerTurn (s : State) : Host.Outcome State Fault Refusal :=
  match s.offer with
  | none => .next s
  | some d =>
    match decode d with
    | .error c => refuseOffer s c
    | .ok i => exec i s

/-- The block in BUSY: the next step of the command in progress. -/
def busyTurn (s : State) : Host.Outcome State Fault Refusal :=
  match runningInstr s.block with
  | none => .fault .noCommandLatched
  | some i => exec i s

/-- The block's turn. In FAULT no block step is enabled (R118). -/
def blockTurn (s : State) : Host.Outcome State Fault Refusal :=
  match s.block.st with
  | .idle => offerTurn s
  | .busy => busyTurn s
  | .fault => .next s

/-- One step of the machine: the scheduled turn. A host move that is not enabled waits, and the block moves instead; when
no turn is scheduled the block moves (log entry 1). -/
def turn (s : State) : Host.Outcome State Fault Refusal :=
  match s.schedule with
  | [] => blockTurn s
  | .block :: rest => blockTurn { s with schedule := rest }
  | .host m :: rest =>
    if hostEnabled m s then .next (hostMove m { s with schedule := rest }) else blockTurn s

/-- The machine with the descriptor `d` on offer and the block IDLE and next to move, so that the next step takes `d`
(log entry 10). -/
def placeOffer (s : State) (d : Descriptor) : State :=
  { s with
    block := { s.block with st := .idle, cause := 0 }
    offer := some d
    schedule := .block :: s.schedule }

end Sys2Proof.Machine
end

