-- ==== Sys2Proof/Machine/Step.lean ====
section
/-! DEFINITION. One step of the machine, and how a descriptor is placed where the next step takes it. -/

namespace Sys2Proof.Machine

/-- One step: one atomic move of one agent (spec/20_memory.md R35). -/
def step (s : State) : Host.Outcome State Fault Refusal := Sys2Proof.Machine.turn s

/-- `s` with the descriptor whose bits are `w` (those from `nbits` up are 0) on offer, so that the next step takes it. -/
def State.withFetchWord (s : State) (nbits w : Nat) : State :=
  Sys2Proof.Machine.placeOffer s (BitVec.ofNat 96 (w % 2 ^ nbits))

end Sys2Proof.Machine
end

