-- ==== Sys2Proof/Machine/Encoder.lean ====
section
/-! DEFINITION. The host context of spec/43_encoder_context.md as pure data: what the Image Encoder, software outside the
block, builds itself and which commands it issues. No step of the machine uses this file. -/

namespace Sys2Proof.Machine

/-- The colour types with their numbers (R98). -/
inductive ColorType where
  | greyscale
  | truecolor
  | indexed
  | greyscaleAlpha
  | truecolorAlpha
  deriving DecidableEq, Repr

def colorTypeNumber : ColorType → Byte
  | .greyscale => 0
  | .truecolor => 2
  | .indexed => 3
  | .greyscaleAlpha => 4
  | .truecolorAlpha => 6

/-- The compression levels, whose numbers alone matter (R99); the level never reaches the block. -/
inductive CompressionLevel where
  | none
  | fastest
  | default
  | best
  deriving DecidableEq, Repr

def compressionLevelNumber : CompressionLevel → Nat
  | .none => 0
  | .fastest => 1
  | .default => 6
  | .best => 9

/-- The legal bit depths, "one of a fixed enumerated set: 1, 2, 4, 8, 16" (R98). -/
inductive BitDepth where
  | one
  | two
  | four
  | eight
  | sixteen
  deriving DecidableEq, Repr

def bitDepthNumber : BitDepth → Byte
  | .one => 1
  | .two => 2
  | .four => 4
  | .eight => 8
  | .sixteen => 16

/-- The Image Descriptor (R98): width and height positive and of 32 bits, the bit depth and the colour type each of its
enumerated set. Which depths go with which colour type is "not cross-validated by this core". -/
structure ImageDescriptor where
  width : Word
  height : Word
  bitDepth : BitDepth
  colorType : ColorType
  width_pos : width ≠ 0
  height_pos : height ≠ 0
  deriving DecidableEq, Repr

/-- The eight signature bytes, which the host writes itself (R103). -/
def pngSignature : List Byte := [0x89, 0x50, 0x4E, 0x47, 0x0D, 0x0A, 0x1A, 0x0A]

/-- The 13 payload bytes of the header chunk (R104). -/
def ihdrPayload (img : ImageDescriptor) : List Byte :=
  be32 img.width ++ be32 img.height ++ [bitDepthNumber img.bitDepth, colorTypeNumber img.colorType, 0x00, 0x00, 0x00]

/-- The 3 payload bytes of the palette chunk, one black entry, whatever the colour type (R105). -/
def pltePayload : List Byte := [0x00, 0x00, 0x00]

/-- The four chunks in their order (R108), each a tag and a payload. The compressed bytes `z` are a parameter (R101,
U6). -/
def chunkList (img : ImageDescriptor) (z : List Byte) : List (Word × List Byte) :=
  [(tagIHDR, ihdrPayload img), (tagPLTE, pltePayload), (tagIDAT, z), (tagIEND, [])]

/-- The whole file: the signature, then the framed chunks (R108). -/
def pngFile (img : ImageDescriptor) (z : List Byte) : List Byte :=
  pngSignature ++ (chunkList img z).flatMap (fun chunk => frame chunk.1 chunk.2)

/-- The descriptor by which the host has the scanlines packed (R106). -/
def packCommand (img : ImageDescriptor) : Instr := .pack img.width img.height (bitDepthNumber img.bitDepth)

/-- The descriptors by which the host has the chunks framed, in order (R104 to R108). DESIGN CHOICE, UNSAFE (log entry 16):
for compressed bytes `z` of 2^32 or more, for which R106 and R69 give no length operand, the low 32 bits of their number are
issued, so that the block frames a prefix of `z` only. -/
def frameCommands (img : ImageDescriptor) (z : List Byte) : List Instr :=
  (chunkList img z).map (fun chunk => .frame chunk.1 (BitVec.ofNat 32 chunk.2.length))

/-- What the host checks before it issues commands: the pixel buffer holds all the bytes `PACK` will take (R100,
R131, R133). -/
def pixelBufferFits (img : ImageDescriptor) (pixels : List Byte) : Bool :=
  decide (need (packCommand img) ≤ pixels.length)

/-- The turns by which a host has one command done: offer the descriptor, offer its input bytes, take its output bytes
(R141). A take waits for its byte, so the block's turns need no entry of their own. This order needs an IN and, for a
command that pushes, an OUT that hold the whole transfer; over smaller streams a host takes and offers in turn. For a `PACK`
whose operands the block refuses, how many takes there are is the model's choice, as `outLength` is (log entry 16). -/
def commandTurns (i : Instr) (input : List Byte) : List Turn :=
  .host (.issue (encode i)) :: (input.map (fun x => .host (.offer x)) ++ List.replicate (outLength i) (.host .take))

end Sys2Proof.Machine
end

