-- ==== Sys2Proof/Safety.lean ====
section
/-! DEFINITION. What counts as a good state and a good end, in the terms the statements use: the machine's invariant
(spec/10_state.md R12, R13, R16, R17), R52 written out as the spec writes it, waiting (spec/60_exceptions.md R117), the
end of a run (spec/70_reset_and_hazards.md R140), and what the host can tell apart (spec/10_state.md R22, R23). -/

namespace Sys2Proof

open Sys2Proof.Machine

/-- The seven-step decode procedure of R52 as the spec lists it: the code a descriptor is refused with, or none when it
is valid. The machine does not use it. -/
def refusalCode (d : Descriptor) : Option FaultCode :=
  let op := d.extractLsb 7 0
  if op ≠ 1#8 ∧ op ≠ 2#8 ∧ op ≠ 3#8 then some .illegalOp
  else if d.extractLsb 31 24 ≠ 0#8 then some .reservedNonzero
  else if (op = 1#8 ∨ op = 2#8) ∧ d.extractLsb 23 8 ≠ 0#16 then some .reservedNonzero
  else if op = 3#8 ∧ d.extractLsb 23 16 ≠ 0#8 then some .badFilter
  else if op = 3#8 ∧ d.extractLsb 15 8 ∉ [1#8, 2#8, 4#8, 8#8, 16#8] then some .badDepth
  else if op = 3#8 ∧ (d.extractLsb 63 32 = 0#32 ∨ d.extractLsb 95 64 = 0#32) then some .badGeometry
  else none

/-- A queue no longer than its capacity (R9). -/
def Fits (depth : Capacity) (len : Nat) : Prop :=
  match depth with
  | .unbounded => True
  | .slots extra => len ≤ extra + 1

/-- A running `CRC32` (R14, R16): the result is not valid and `n` has not passed the length. -/
structure CrcRunningInv (blk : Block) : Prop where
  op : blk.op = opCrc32
  depth : blk.depth = 0
  filter : blk.filter = 0
  rv : blk.rv = false
  n : blk.n ≤ blk.b.toNat

/-- A running `FRAME` (R16): `n` has not passed the chunk's length. -/
structure FrameRunningInv (blk : Block) : Prop where
  op : blk.op = opFrame
  depth : blk.depth = 0
  filter : blk.filter = 0
  n : blk.n ≤ 12 + blk.b.toNat

/-- A running `PACK` (R16, R94, R96): legal operands, the position inside the image. -/
structure PackRunningInv (blk : Block) : Prop where
  op : blk.op = opPack
  filter : blk.filter = 0
  legal : (Instr.pack blk.a blk.b blk.depth).WellFormed
  row : blk.row ≤ blk.b.toNat
  col : blk.col ≤ latchedByteWidth blk
  last : blk.row = blk.b.toNat → blk.col = 0

/-- The machine's invariant, in every state: `cause` is a code exactly in FAULT (R13), a BUSY block runs one of the three
commands within its bounds (R12, R16), and neither queue is longer than its capacity (R9). -/
structure Inv (s : State) : Prop where
  causeZero : s.block.st ≠ .fault → s.block.cause = 0
  causeCode : s.block.st = .fault → ∃ c : FaultCode, s.block.cause = c.code
  running : s.block.st = .busy → CrcRunningInv s.block ∨ FrameRunningInv s.block ∨ PackRunningInv s.block
  inFits : Fits s.inDepth s.block.inQ.length
  outFits : Fits s.outDepth s.block.outQ.length

/-- `k` steps of the machine, stopping at the first that answers no next state. -/
def runSteps : Nat → State → Host.Outcome State Fault Refusal
  | 0, s => .next s
  | k + 1, s =>
    match step s with
    | .next t => runSteps k t
    | .fault r => .fault r
    | .refused r => .refused r

/-- When the block is to move, its move answers `move` of the state. It comes to move in three ways: no turn is scheduled; a
block turn is, which the step uses up; or a host move is that is not enabled, which waits (log entry 1). -/
def BlockSteps (s : State) (move : State → Host.Outcome State Fault Refusal) : Prop :=
  (s.schedule = [] → step s = move s) ∧
    (∀ rest, s.schedule = .block :: rest → step s = move { s with schedule := rest }) ∧
    (∀ m rest, s.schedule = .host m :: rest → hostEnabled m s = false → step s = move s)

/-- The next step of the machine is the host's reset: it is scheduled, and reset is enabled in every state (R128). -/
def ResetNext (s : State) : Prop := ∃ rest, s.schedule = .host .reset :: rest

/-- The command in progress has no enabled step (R117). -/
def Waiting (s : State) : Prop :=
  s.block.st = .busy ∧
    ((s.block.op = opCrc32 ∧ crc32Running s.block = none) ∨
      (s.block.op = opFrame ∧ frameRunning s.outDepth s.block = none) ∨
      (s.block.op = opPack ∧ packRunning s.outDepth s.block = none))

/-- The next step of the command in progress needs a byte of IN, and there is none (R27, R117). -/
def WaitsOnIn (blk : Block) : Prop :=
  blk.st = .busy ∧ blk.inQ = [] ∧
    ((blk.op = opCrc32 ∧ blk.n < blk.b.toNat) ∨
      (blk.op = opFrame ∧ 8 ≤ blk.n ∧ blk.n < 8 + blk.b.toNat) ∨
      (blk.op = opPack ∧ blk.row < blk.b.toNat ∧ 1 ≤ blk.col ∧ blk.col ≤ latchedByteWidth blk))

/-- `st = IDLE` and no descriptor offered (the glossary of 00_scope, for R140). -/
abbrev Quiescent (s : State) : Prop := s.block.st = .idle ∧ s.offer = none

/-- The block is to move: no turn is scheduled, a block turn is, or a host move that is not enabled (log entry 1). -/
def blockNext (s : State) : Bool :=
  match s.schedule with
  | [] => true
  | .block :: _ => true
  | .host m :: _ => !hostEnabled m s

/-- The descriptor the next step accepts: `S-ACCEPT` is the block's move on a valid descriptor on offer in IDLE (R112). -/
def acceptsNext (s : State) : Option Descriptor :=
  if blockNext s ∧ s.block.st = .idle then s.offer.filter (fun d => (refusalCode d).isNone) else none

/-- How many output bytes the command a descriptor selects pushes in all; for a `PACK` that R52 refuses, which no record of
accepts holds, `outLength`'s own choice (log entry 16). -/
def outputOf (d : Descriptor) : Nat :=
  match decode d with
  | .ok i => outLength i
  | .error _ => 0

/-- How many output bytes the command in progress has pushed so far (R16, R82, R97). -/
def pushedSoFar (blk : Block) : Nat :=
  if blk.op = opFrame then blk.n
  else if blk.op = opPack then blk.row * (latchedByteWidth blk + 1) + blk.col
  else 0

/-- Of completed commands, newest first, those that lose no byte when the newest `queued` bytes they pushed are discarded. -/
def delivered (queued : Nat) : List Descriptor → List Descriptor
  | [] => []
  | d :: older =>
    if queued = 0 ∨ outputOf d = 0 then d :: delivered queued older else delivered (queued - outputOf d) older

/-- The record of accepts after a reset of a block with the record `accepted`: without the command the reset abandons
(R129), and without those completed commands of which bytes still in `out_q` are discarded (R24). -/
def recordReset (blk : Block) (accepted : List Descriptor) : List Descriptor :=
  if blk.st = .busy then (delivered (blk.outQ.length - pushedSoFar blk) accepted.reverse.tail).reverse
  else (delivered blk.outQ.length accepted.reverse).reverse

/-- The record of accepts after the next step of `s`, `accepted` being the record before it. A reset takes off it what it
abandons or cuts short, and nothing else: DESIGN CHOICE, SAFE (log entry 19). -/
def recordAccept (s : State) (accepted : List Descriptor) : List Descriptor :=
  match s.schedule with
  | .host .reset :: _ => recordReset s.block accepted
  | _ => accepted ++ (acceptsNext s).toList

/-- The descriptors accepted, oldest first, once the `k` steps of a run from `s` are added to the record. -/
def acceptedIn : Nat → State → List Descriptor → List Descriptor
  | 0, _, accepted => accepted
  | k + 1, s, accepted =>
    match step s with
    | .next t => acceptedIn k t (recordAccept s accepted)
    | .fault _ => accepted
    | .refused _ => accepted

/-- The run of `k` steps from `start` on the list `descriptors` is over, and over well (R140): every descriptor of the list
has been accepted, `st = IDLE`, `in_q = []`, and the host has taken every byte of `out_q`. It says nothing of turns that
are left. -/
def RunOver (descriptors : List Descriptor) (start : State) (k : Nat) : Prop :=
  acceptedIn k start [] = descriptors ∧
    ∃ t, runSteps k start = .next t ∧ t.block.st = .idle ∧ t.block.inQ = [] ∧ t.block.outQ = []

/-- A state with `st = BUSY` and no enabled step that nothing the host still does will end: the block waits now and in
every later state of the run (R140, "stuck and never a good end"). -/
def Stuck (s : State) : Prop := ∀ k t, runSteps k s = .next t → Waiting t

/-- Two states the host cannot tell apart, now or later (R22, R23): they agree but for what no step will read, that is
`result` while `rv = 0`, the latches and counters outside BUSY, and `acc` outside a running `CRC32` or `FRAME`. -/
structure SameForHost (s t : State) : Prop where
  offer : s.offer = t.offer
  inDepth : s.inDepth = t.inDepth
  outDepth : s.outDepth = t.outDepth
  regMap : s.regMap = t.regMap
  schedule : s.schedule = t.schedule
  taken : s.taken = t.taken
  statusReads : s.statusReads = t.statusReads
  resultReads : s.resultReads = t.resultReads
  draws : s.draws = t.draws
  st : s.block.st = t.block.st
  cause : s.block.cause = t.block.cause
  rv : s.block.rv = t.block.rv
  inQ : s.block.inQ = t.block.inQ
  outQ : s.block.outQ = t.block.outQ
  result : s.block.rv = true → s.block.result = t.block.result
  latches : s.block.st = .busy → s.block.op = t.block.op ∧ s.block.a = t.block.a ∧ s.block.b = t.block.b ∧
    s.block.depth = t.block.depth ∧ s.block.filter = t.block.filter ∧ s.block.n = t.block.n ∧
    s.block.row = t.block.row ∧ s.block.col = t.block.col
  acc : s.block.st = .busy → s.block.op ≠ opPack → s.block.acc = t.block.acc

/-- `CRC32` in progress, `s` being the bytes it has taken so far (R67). -/
structure CrcAt (taken : List Byte) (blk : Block) : Prop where
  st : blk.st = .busy
  op : blk.op = opCrc32
  n : blk.n = taken.length
  bound : taken.length ≤ blk.b.toNat
  acc : blk.acc = crcFold (blk.a ^^^ crcMask) taken

/-- `FRAME` in progress, `p` being the payload bytes it has taken and `out` the bytes it has pushed so far (R82). -/
structure FrameAt (p out : List Byte) (blk : Block) : Prop where
  st : blk.st = .busy
  op : blk.op = opFrame
  bound : blk.n ≤ 12 + blk.b.toNat
  payload : p.length = min blk.n (8 + blk.b.toNat) - 8
  acc : blk.acc = crcFold crcMask ((be32 blk.a).take (blk.n - 4) ++ p)
  pushed : out = (be32 blk.b ++ be32 blk.a ++ p ++ be32 (crc32 0 (be32 blk.a ++ p))).take blk.n

/-- `PACK` in progress, `px` being the pixel bytes it has taken and `out` the bytes it has pushed so far (R97): the whole
rows, then the filter byte and the pixel bytes of the row begun. -/
structure PackAt (px out : List Byte) (blk : Block) : Prop where
  st : blk.st = .busy
  inv : PackRunningInv blk
  pixels : px.length = blk.row * latchedByteWidth blk + (blk.col - 1)
  pushed : out = pack px blk.a.toNat blk.row blk.depth.toNat ++
    (if blk.col = 0 then [] else filterNone :: px.drop (blk.row * latchedByteWidth blk))

end Sys2Proof
end

