-- ==== Sys2Proof/Certificates/Slice0/Obligations.lean ====
section
/-! DEFINITION. The statements for the provers. Each docstring names the rule of spec/ it formalises. -/

open Sys2Proof Sys2Proof.Machine

/-! ## Encoding (spec/30_encoding.md) -/

/-- R41 to R43: the descriptor of a command decodes to that command, every operand at every value of its field. `decode`
makes checks 1 to 4 of R52 only, so a `PACK` whose operands checks 5 and 6 refuse is among them: that split is the model's
choice (log entry 12), and R52's full decode refuses such a descriptor. -/
def Obligations.DecodeEncodeRoundTrip : Prop := ∀ i : Instr, decode (encode i) = .ok i

/-- R41, R42, R49, R51: a descriptor that decodes is the descriptor of its command, so no bit of it is ignored. -/
def Obligations.EncodeDecodeRoundTrip : Prop := ∀ (d : Descriptor) (i : Instr), decode d = .ok i → encode i = d

/-- Section 4 of 30_encoding and the vectors X1, X4, X6, X8 of 95: words written out from the encoding decode as the
spec says. -/
def Obligations.WrittenDescriptorsDecode : Prop :=
  decode 0x000000040000000000000001 = .ok (.crc32 0x00000000 0x00000004) ∧
  decode 0x0000000349454E4400000002 = .ok (.frame 0x49454E44 0x00000003) ∧
  decode 0x000000030000000200000803 = .ok (.pack 0x00000002 0x00000003 0x08) ∧
  decode 0x000000000000000000000000 = .error .illegalOp ∧
  decode 0x000000000000000001000001 = .error .reservedNonzero ∧
  decode 0x000000000000000000010002 = .error .reservedNonzero ∧
  decode 0x000000000000000000010303 = .error .badFilter

/-! ## Accept and faults (spec/60_exceptions.md) -/

/-- R114, R115: a descriptor on offer to an IDLE block that the procedure of R52 refuses with code `c` puts the block in
FAULT with cause `c`, consumes the offer, and changes nothing else, in each of the three ways the block comes to move
(the model's choice, log entry 1). -/
def Obligations.RefusedDescriptorTakesFault : Prop :=
  ∀ (s : State) (d : Descriptor) (c : FaultCode),
    s.block.st = .idle → s.offer = some d → refusalCode d = some c →
      BlockSteps s fun u => .next { u with offer := none, block := { u.block with st := .fault, cause := c.code } }

/-- R112 (with R64, R76, R93): a descriptor on offer to an IDLE block that the procedure of R52 finds valid is latched,
the counters are cleared, the block is BUSY, the offer is consumed; `acc` and `rv` change as the command says; nothing
else changes; in each of the three ways the block comes to move (the model's choice, log entry 1). While the block is not
IDLE the offer waits, whatever the step is but a reset. -/
def Obligations.ValidDescriptorIsAccepted : Prop :=
  ∀ (s : State) (d : Descriptor), s.offer = some d →
    (s.block.st = .idle → refusalCode d = none →
      BlockSteps s fun u => .next { u with
        offer := none
        block := { u.block with
          st := .busy
          op := d.extractLsb 7 0
          depth := d.extractLsb 15 8
          filter := d.extractLsb 23 16
          a := d.extractLsb 63 32
          b := d.extractLsb 95 64
          n := 0
          row := 0
          col := 0
          acc := if d.extractLsb 7 0 = 1#8 then (d.extractLsb 63 32 : Word) ^^^ 0xFFFFFFFF
                 else if d.extractLsb 7 0 = 2#8 then 0xFFFFFFFF else u.block.acc
          rv := if d.extractLsb 7 0 = 1#8 then false else u.block.rv } }) ∧
    (s.block.st ≠ .idle → ∀ t, step s = .next t → ¬ ResetNext s → t.offer = some d)

/-- A step runs the decoded instruction: when the block is to move (no turn scheduled, a block turn scheduled, or a host
move that is not enabled), an IDLE block with an offer that decodes to `i` does exactly `exec i`, and a BUSY block does
exactly `exec i` of the command in its latches. Around `exec`, a step only uses up a block turn. The schedule is the
model's choice (log entry 1). -/
def Obligations.StepRunsDecodedInstr : Prop :=
  ∀ (s : State) (i : Instr),
    ((s.block.st = .idle ∧ ∃ d, s.offer = some d ∧ decode d = .ok i) ∨
      (s.block.st = .busy ∧ runningInstr s.block = some i)) →
    BlockSteps s (exec i)

/-- R64, R112: `CRC32 seed, length` in IDLE. -/
def Obligations.Crc32AcceptWrites : Prop :=
  ∀ (seed length : Word) (s : State), s.block.st = .idle →
    exec (.crc32 seed length) s = .next { s with
      offer := none
      block := { s.block with
        st := .busy, op := 0x01, a := seed, b := length, depth := 0, filter := 0, n := 0, row := 0, col := 0,
        acc := seed ^^^ 0xFFFFFFFF, rv := false } }

/-- R76, R112: `FRAME type, length` in IDLE; `rv` and `result` are not touched. -/
def Obligations.FrameAcceptWrites : Prop :=
  ∀ (tag length : Word) (s : State), s.block.st = .idle →
    exec (.frame tag length) s = .next { s with
      offer := none
      block := { s.block with
        st := .busy, op := 0x02, a := tag, b := length, depth := 0, filter := 0, n := 0, row := 0, col := 0,
        acc := 0xFFFFFFFF } }

/-- R93, R112: `PACK width, height, depth` in IDLE with legal operands; `acc`, `rv` and `result` are not touched. -/
def Obligations.PackAcceptWrites : Prop :=
  ∀ (width height : Word) (depth : Byte) (s : State), s.block.st = .idle →
    (Instr.pack width height depth).WellFormed →
    exec (.pack width height depth) s = .next { s with
      offer := none
      block := { s.block with
        st := .busy, op := 0x03, a := width, b := height, depth := depth, filter := 0, n := 0, row := 0, col := 0 } }

/-- R113 codes 4 and 5, R114, R115: `PACK` in IDLE with an illegal depth takes fault 4 whatever the geometry, and with a
legal depth and a width or height of 0 takes fault 5. -/
def Obligations.PackIllegalOperandsFault : Prop :=
  ∀ (width height : Word) (depth : Byte) (s : State), s.block.st = .idle →
    (depth ∉ legalDepths →
      exec (.pack width height depth) s =
        .next { s with offer := none, block := { s.block with st := .fault, cause := 4 } }) ∧
    (depth ∈ legalDepths → (width = 0 ∨ height = 0) →
      exec (.pack width height depth) s =
        .next { s with offer := none, block := { s.block with st := .fault, cause := 5 } })

/-! ## The byte steps of CRC32 (spec/40_crc32.md) -/

/-- R65, `S-CRC-BYTE`; the operands are read from the latches, so it holds for every `seed` and `length`. -/
def Obligations.CrcByteStep : Prop :=
  ∀ (seed length : Word) (s : State) (x : Byte) (q : List Byte),
    s.block.st = .busy → s.block.op = 0x01 → s.block.n < s.block.b.toNat → s.block.inQ = x :: q →
    exec (.crc32 seed length) s = .next { s with
      block := { s.block with inQ := q, acc := upd s.block.acc x, n := s.block.n + 1 } }

/-- R66, `S-CRC-DONE`. -/
def Obligations.CrcDoneStep : Prop :=
  ∀ (seed length : Word) (s : State),
    s.block.st = .busy → s.block.op = 0x01 → s.block.n = s.block.b.toNat →
    exec (.crc32 seed length) s = .next { s with
      block := { s.block with result := s.block.acc ^^^ 0xFFFFFFFF, rv := true, st := .idle } }

/-! ## The byte steps of FRAME (spec/41_frame.md) -/

/-- R77, `S-FRM-LEN`: the byte pushed is `be32(b)[n]`. -/
def Obligations.FrameLengthByteStep : Prop :=
  ∀ (tag length : Word) (s : State),
    s.block.st = .busy → s.block.op = 0x02 → s.block.n < 4 → Fits s.outDepth (s.block.outQ.length + 1) →
    ∃ x, (be32 s.block.b)[s.block.n]? = some x ∧
      exec (.frame tag length) s = .next { s with
        block := { s.block with outQ := s.block.outQ ++ [x], n := s.block.n + 1 } }

/-- R78, `S-FRM-TYPE`: the byte pushed is `be32(a)[n - 4]`, and it enters the CRC. -/
def Obligations.FrameTypeByteStep : Prop :=
  ∀ (tag length : Word) (s : State),
    s.block.st = .busy → s.block.op = 0x02 → 4 ≤ s.block.n → s.block.n < 8 →
    Fits s.outDepth (s.block.outQ.length + 1) →
    ∃ x, (be32 s.block.a)[s.block.n - 4]? = some x ∧
      exec (.frame tag length) s = .next { s with
        block := { s.block with
          outQ := s.block.outQ ++ [x], acc := upd s.block.acc x, n := s.block.n + 1 } }

/-- R79, `S-FRM-PAY`: the byte is copied unchanged, and it enters the CRC. -/
def Obligations.FramePayloadByteStep : Prop :=
  ∀ (tag length : Word) (s : State) (x : Byte) (q : List Byte),
    s.block.st = .busy → s.block.op = 0x02 → 8 ≤ s.block.n → s.block.n < 8 + s.block.b.toNat →
    s.block.inQ = x :: q → Fits s.outDepth (s.block.outQ.length + 1) →
    exec (.frame tag length) s = .next { s with
      block := { s.block with
        inQ := q, outQ := s.block.outQ ++ [x], acc := upd s.block.acc x, n := s.block.n + 1 } }

/-- R80, `S-FRM-CRC`: the byte pushed is `be32(acc ^ 0xFFFFFFFF)[n - 8 - b]`; `acc` is not changed. -/
def Obligations.FrameCrcByteStep : Prop :=
  ∀ (tag length : Word) (s : State),
    s.block.st = .busy → s.block.op = 0x02 → 8 + s.block.b.toNat ≤ s.block.n → s.block.n < 12 + s.block.b.toNat →
    Fits s.outDepth (s.block.outQ.length + 1) →
    ∃ x, (be32 (s.block.acc ^^^ 0xFFFFFFFF))[s.block.n - 8 - s.block.b.toNat]? = some x ∧
      exec (.frame tag length) s = .next { s with
        block := { s.block with outQ := s.block.outQ ++ [x], n := s.block.n + 1 } }

/-- R81, `S-FRM-DONE`. -/
def Obligations.FrameDoneStep : Prop :=
  ∀ (tag length : Word) (s : State),
    s.block.st = .busy → s.block.op = 0x02 → s.block.n = 12 + s.block.b.toNat →
    exec (.frame tag length) s = .next { s with block := { s.block with st := .idle } }

/-! ## The byte steps of PACK (spec/42_pack.md) -/

/-- R94, `S-PCK-FILT`: the latched filter byte is pushed. -/
def Obligations.PackFilterByteStep : Prop :=
  ∀ (width height : Word) (depth : Byte) (s : State),
    s.block.st = .busy → s.block.op = 0x03 → s.block.row < s.block.b.toNat → s.block.col = 0 →
    Fits s.outDepth (s.block.outQ.length + 1) →
    exec (.pack width height depth) s = .next { s with
      block := { s.block with outQ := s.block.outQ ++ [s.block.filter], col := 1 } }

/-- R95, `S-PCK-DATA`: the byte is copied, and the position goes on, to the next row after the last byte of a row. -/
def Obligations.PackDataByteStep : Prop :=
  ∀ (width height : Word) (depth : Byte) (s : State) (x : Byte) (q : List Byte),
    s.block.st = .busy → s.block.op = 0x03 → s.block.row < s.block.b.toNat → 1 ≤ s.block.col →
    s.block.col ≤ byteWidth s.block.a.toNat s.block.depth.toNat → s.block.inQ = x :: q →
    Fits s.outDepth (s.block.outQ.length + 1) →
    exec (.pack width height depth) s = .next { s with
      block := { s.block with
        inQ := q
        outQ := s.block.outQ ++ [x]
        row := if s.block.col = byteWidth s.block.a.toNat s.block.depth.toNat then s.block.row + 1 else s.block.row
        col := if s.block.col = byteWidth s.block.a.toNat s.block.depth.toNat then 0 else s.block.col + 1 } }

/-- R96, `S-PCK-DONE`. -/
def Obligations.PackDoneStep : Prop :=
  ∀ (width height : Word) (depth : Byte) (s : State),
    s.block.st = .busy → s.block.op = 0x03 → s.block.row = s.block.b.toNat →
    exec (.pack width height depth) s = .next { s with block := { s.block with st := .idle } }

/-- R12, R112: an IDLE block with no offer does nothing of its own accord. R117: a command whose next step needs a byte from
an empty `in_q`, or room in a full `out_q`, waits. In both the block's turn changes nothing, in each of the three ways the
block comes to move (log entry 1). That a block with no enabled step answers the same state, where the spec says it has no
step, is the model's choice (log entry 11). -/
def Obligations.StarvedCommandWaits : Prop :=
  ∀ (s : State),
    ((s.block.st = .idle ∧ s.offer = none) ∨ s.block.st = .busy ∧
     ((s.block.op = 0x01 ∧ s.block.n < s.block.b.toNat ∧ s.block.inQ = []) ∨
      (s.block.op = 0x02 ∧ 8 ≤ s.block.n ∧ s.block.n < 8 + s.block.b.toNat ∧ s.block.inQ = []) ∨
      (s.block.op = 0x02 ∧ s.block.n < 12 + s.block.b.toNat ∧ ¬ Fits s.outDepth (s.block.outQ.length + 1)) ∨
      (s.block.op = 0x03 ∧ s.block.row < s.block.b.toNat ∧ 1 ≤ s.block.col ∧
        s.block.col ≤ byteWidth s.block.a.toNat s.block.depth.toNat ∧ s.block.inQ = []) ∨
      (s.block.op = 0x03 ∧ s.block.row < s.block.b.toNat ∧
        s.block.col ≤ byteWidth s.block.a.toNat s.block.depth.toNat ∧
        ¬ Fits s.outDepth (s.block.outQ.length + 1)))) →
    BlockSteps s .next

/-! ## Whole commands: the step level agrees with the function level (R67, R82, R97, R139) -/

/-- R67, R63, R139: from IDLE, with the descriptor on offer and its input bytes on IN, a `CRC32` takes exactly
`1 + b + 1` block steps and leaves `result = crc32(a, s)`, `rv = 1`, `st = IDLE`, exactly `b` bytes fewer on IN, and OUT
as it was. R140: where IN held those `b` bytes alone and OUT was drained, that run on the one descriptor is over, and over
well. -/
def Obligations.Crc32CommandComputesCrc : Prop :=
  ∀ (s : State) (seed length : Word),
    s.schedule = [] → s.block.st = .idle → s.offer = some (encode (.crc32 seed length)) →
    length.toNat ≤ s.block.inQ.length →
    runSteps (1 + length.toNat + 1) s = .next { s with
      offer := none
      block := { s.block with
        st := .idle, op := 0x01, a := seed, b := length, depth := 0, filter := 0,
        n := length.toNat, row := 0, col := 0,
        acc := crc32 seed (s.block.inQ.take length.toNat) ^^^ 0xFFFFFFFF,
        result := crc32 seed (s.block.inQ.take length.toNat), rv := true,
        inQ := s.block.inQ.drop length.toNat } } ∧
    (s.block.inQ.length = length.toNat → s.block.outQ = [] →
      RunOver [encode (.crc32 seed length)] s (1 + length.toNat + 1))

/-- R82, R75, R139: from IDLE, with the descriptor on offer, its payload on IN and room on OUT for the chunk, a `FRAME`
takes exactly `1 + 12 + b + 1` block steps, pushes exactly `frame(a, p)`, takes exactly `b` bytes from IN, and leaves
`rv` and `result` as they were. -/
def Obligations.FrameCommandEmitsChunk : Prop :=
  ∀ (s : State) (tag length : Word),
    s.schedule = [] → s.block.st = .idle → s.offer = some (encode (.frame tag length)) →
    length.toNat ≤ s.block.inQ.length → Fits s.outDepth (s.block.outQ.length + (length.toNat + 12)) →
    runSteps (1 + 12 + length.toNat + 1) s = .next { s with
      offer := none
      block := { s.block with
        st := .idle, op := 0x02, a := tag, b := length, depth := 0, filter := 0,
        n := 12 + length.toNat, row := 0, col := 0,
        acc := crc32 0 (be32 tag ++ s.block.inQ.take length.toNat) ^^^ 0xFFFFFFFF,
        inQ := s.block.inQ.drop length.toNat,
        outQ := s.block.outQ ++ frame tag (s.block.inQ.take length.toNat) } }

/-- R97, R92, R139: from IDLE, with the descriptor of a legal `PACK` on offer, its pixel bytes on IN and room on OUT for
the rows, it takes exactly `1 + (bw + 1) × b + 1` block steps, pushes exactly `pack(s, a, b, depth)`, takes exactly
`bw × b` bytes from IN, and leaves `rv`, `result` and `acc` as they were. -/
def Obligations.PackCommandEmitsRows : Prop :=
  ∀ (s : State) (width height : Word) (depth : Byte),
    s.schedule = [] → s.block.st = .idle → s.offer = some (encode (.pack width height depth)) →
    (Instr.pack width height depth).WellFormed →
    byteWidth width.toNat depth.toNat * height.toNat ≤ s.block.inQ.length →
    Fits s.outDepth (s.block.outQ.length + rowStride width.toNat depth.toNat * height.toNat) →
    runSteps (1 + (byteWidth width.toNat depth.toNat + 1) * height.toNat + 1) s = .next { s with
      offer := none
      block := { s.block with
        st := .idle, op := 0x03, a := width, b := height, depth := depth, filter := 0,
        n := 0, row := height.toNat, col := 0,
        inQ := s.block.inQ.drop (byteWidth width.toNat depth.toNat * height.toNat),
        outQ := s.block.outQ ++ pack (s.block.inQ.take (byteWidth width.toNat depth.toNat * height.toNat))
          width.toNat height.toNat depth.toNat } }

/-- R67 at every intermediate point and under every interleaving: while a `CRC32` runs, having taken the bytes `u`, a
step of any agent other than a reset leaves it running with the bytes `u` and whatever that step took from the front of
`in_q`, and `acc` the fold over them; or it completes, having taken exactly `b` bytes, with `result = crc32(a, u)`. -/
def Obligations.CrcProgressKept : Prop :=
  ∀ (s t : State) (u : List Byte), CrcAt u s.block → step s = .next t → ¬ ResetNext s →
    (∃ consumed offered, consumed.length + offered.length ≤ 1 ∧ s.block.inQ ++ offered = consumed ++ t.block.inQ ∧
      CrcAt (u ++ consumed) t.block ∧ t.block.a = s.block.a ∧ t.block.b = s.block.b) ∨
    (u.length = s.block.b.toNat ∧ t.block.st = .idle ∧ t.block.rv = true ∧ t.block.result = crc32 s.block.a u ∧
      t.block.inQ = s.block.inQ)

/-- R82 at every intermediate point and under every interleaving: while a `FRAME` runs, having taken the payload bytes
`p` and pushed the bytes `o`, a step of any agent other than a reset leaves it running with what that step took and
pushed added to them; or it completes, having taken exactly `b` bytes and pushed exactly `frame(a, p)`. -/
def Obligations.FrameProgressKept : Prop :=
  ∀ (s t : State) (p o : List Byte), FrameAt p o s.block → step s = .next t → ¬ ResetNext s →
    (∃ consumed offered pushed, consumed.length + offered.length ≤ 1 ∧ pushed.length ≤ 1 ∧
      s.block.inQ ++ offered = consumed ++ t.block.inQ ∧
      s.taken ++ s.block.outQ ++ pushed = t.taken ++ t.block.outQ ∧
      FrameAt (p ++ consumed) (o ++ pushed) t.block ∧ t.block.a = s.block.a ∧ t.block.b = s.block.b) ∨
    (p.length = s.block.b.toNat ∧ t.block.st = .idle ∧ o = frame s.block.a p ∧
      t.block.inQ = s.block.inQ ∧ t.taken ++ t.block.outQ = s.taken ++ s.block.outQ)

/-- R97 at every intermediate point and under every interleaving: while a `PACK` runs, having taken the pixel bytes `px`
and pushed the bytes `o`, a step of any agent other than a reset leaves it running with what that step took and pushed
added to them; or it completes, having taken exactly `bw × b` bytes and pushed exactly `pack(px, a, b, depth)`. -/
def Obligations.PackProgressKept : Prop :=
  ∀ (s t : State) (px o : List Byte), PackAt px o s.block → step s = .next t → ¬ ResetNext s →
    (∃ consumed offered pushed, consumed.length + offered.length ≤ 1 ∧ pushed.length ≤ 1 ∧
      s.block.inQ ++ offered = consumed ++ t.block.inQ ∧
      s.taken ++ s.block.outQ ++ pushed = t.taken ++ t.block.outQ ∧
      PackAt (px ++ consumed) (o ++ pushed) t.block ∧
      t.block.a = s.block.a ∧ t.block.b = s.block.b ∧ t.block.depth = s.block.depth) ∨
    (px.length = byteWidth s.block.a.toNat s.block.depth.toNat * s.block.b.toNat ∧ t.block.st = .idle ∧
      o = pack px s.block.a.toNat s.block.b.toNat s.block.depth.toNat ∧
      t.block.inQ = s.block.inQ ∧ t.taken ++ t.block.outQ = s.taken ++ s.block.outQ)

/-! ## The three functions -/

/-- R59: the table-driven update equals the bitwise form, for every register and every byte. -/
def Obligations.TableUpdateEqualsBitwise : Prop := ∀ (c : Word) (x : Byte), upd c x = updBitwise c x

/-- R60: the CRC of the empty range is the seed. -/
def Obligations.CrcOfEmptyRangeIsSeed : Prop := ∀ seed : Word, crc32 seed [] = seed

/-- R61: feeding a result back as the seed continues the computation. -/
def Obligations.CrcChainsThroughSeed : Prop :=
  ∀ (seed : Word) (u v : List Byte), crc32 (crc32 seed u) v = crc32 seed (u ++ v)

/-- R69, R70, R74: the layout of a framed chunk, by offsets, for every payload whose length fits the length field; the
CRC field is the CRC of the type and payload bytes that stand in the chunk. -/
def Obligations.FramedChunkLayout : Prop :=
  ∀ (tag : Word) (p : List Byte), p.length < 2 ^ 32 →
    (frame tag p).length = p.length + 12 ∧
    slice (frame tag p) 0 4 = be32 (BitVec.ofNat 32 p.length) ∧
    slice (frame tag p) 4 8 = be32 tag ∧
    slice (frame tag p) 8 (8 + p.length) = p ∧
    slice (frame tag p) (8 + p.length) (12 + p.length) = be32 (crc32 0 (slice (frame tag p) 4 (8 + p.length)))

/-- R71: the chunk of an empty payload. -/
def Obligations.EmptyChunkIsTwelveBytes : Prop :=
  ∀ tag : Word, frame tag [] = [0x00, 0x00, 0x00, 0x00] ++ be32 tag ++ be32 (crc32 0 (be32 tag))

/-- R29: `be32` is big-endian: the four bytes of a value, read most significant first, are the value. -/
def Obligations.BigEndianBytesDetermineWord : Prop :=
  ∀ v : Word, ∃ x0 x1 x2 x3 : Byte, be32 v = [x0, x1, x2, x3] ∧
    v.toNat = x0.toNat * 2 ^ 24 + x1.toNat * 2 ^ 16 + x2.toNat * 2 ^ 8 + x3.toNat

/-- R85, R87: the length of `pack` and its bytes, row by row and element by element. For a width or height of 0 or a depth
that is not legal, which R87 does not cover, it is about the model's own `pack` (the model's choice, log entry 16). -/
def Obligations.PackedRowsLayout : Prop :=
  ∀ (px : List Byte) (w h d : Nat), h * byteWidth w d ≤ px.length →
    (pack px w h d).length = rowStride w d * h ∧
    ∀ i, i < h →
      (pack px w h d)[i * rowStride w d]? = some 0x00 ∧
      ∀ j, j < byteWidth w d → (pack px w h d)[i * rowStride w d + 1 + j]? = px[i * byteWidth w d + j]?

/-- R90: dropping the filter byte of every row gives back the pixel bytes that were read. For a width or height of 0 or a
depth that is not legal it is about the model's own `pack` (the model's choice, log entry 16). -/
def Obligations.PackIsInvertible : Prop :=
  ∀ (px : List Byte) (w h d : Nat), h * byteWidth w d ≤ px.length →
    (List.range h).flatMap
      (fun i => slice (pack px w h d) (i * rowStride w d + 1) ((i + 1) * rowStride w d)) =
      px.take (h * byteWidth w d)

/-- R89: bytes of the pixel buffer beyond `height × byteWidth` do not affect the result. For a width or height of 0 or a
depth that is not legal it is about the model's own `pack` (the model's choice, log entry 16). -/
def Obligations.PackIgnoresSurplusPixels : Prop :=
  ∀ (px more : List Byte) (w h d : Nat), h * byteWidth w d ≤ px.length → pack (px ++ more) w h d = pack px w h d

/-- R86: the bounds of the exact geometry, and what `byteWidth` is at each legal depth. -/
def Obligations.ByteWidthBounds : Prop :=
  ∀ (width height : Word) (depth : Byte), (Instr.pack width height depth).WellFormed →
    width.toNat * depth.toNat ≤ 2 ^ 36 - 16 ∧
    1 ≤ byteWidth width.toNat depth.toNat ∧ byteWidth width.toNat depth.toNat ≤ 2 ^ 33 - 2 ∧
    2 ≤ rowStride width.toNat depth.toNat ∧ rowStride width.toNat depth.toNat ≤ 2 ^ 33 - 1 ∧
    byteWidth width.toNat depth.toNat * height.toNat < 2 ^ 65 ∧
    rowStride width.toNat depth.toNat * height.toNat < 2 ^ 65 ∧
    (depth = 1 → byteWidth width.toNat depth.toNat = (width.toNat + 8 - 1) / 8) ∧
    (depth = 2 → byteWidth width.toNat depth.toNat = (width.toNat + 4 - 1) / 4) ∧
    (depth = 4 → byteWidth width.toNat depth.toNat = (width.toNat + 2 - 1) / 2) ∧
    (depth = 8 → byteWidth width.toNat depth.toNat = width.toNat) ∧
    (depth = 16 → byteWidth width.toNat depth.toNat = 2 * width.toNat)

/-! ## Whole-machine rules: every step of every agent -/

/-- R24: what reset leaves, for the elements the table gives a value. -/
def Obligations.ResetLeavesSpecValues : Prop :=
  State.reset.block.st = .idle ∧ State.reset.block.cause = 0 ∧ State.reset.block.rv = false ∧
    State.reset.block.inQ = [] ∧ State.reset.block.outQ = [] ∧ statusWord State.reset.block = 0x00000000

/-- The machine's invariant holds at reset. The capacities there are the model's choice (log entry 3). -/
def Obligations.GoodStateAtReset : Prop := Inv State.reset

/-- The machine's invariant (R9, R12, R13, R16) is kept by every step of every agent. -/
def Obligations.GoodStateKeptByStep : Prop := ∀ s t : State, Inv s → step s = .next t → Inv t

/-- R16: the bounds the spec states on the counters, in every state that meets the invariant. -/
def Obligations.CountersStayBounded : Prop :=
  ∀ s : State, Inv s → s.block.st = .busy →
    (s.block.op = 0x01 → s.block.n ≤ 2 ^ 32 - 1) ∧
    (s.block.op = 0x02 → s.block.n ≤ 2 ^ 32 + 11) ∧
    (s.block.op = 0x03 → s.block.row ≤ 2 ^ 32 - 1 ∧ s.block.col ≤ 2 ^ 33 - 2)

/-- From a state that meets the invariant a step always answers a next state: no refusal stops it, nor the model's own
fault for a BUSY block with no command's opcode latched (the model's choice, log entry 6). Where the spec says that the
block has no step (R117, R118) the next state is the same state: the model's choice too (log entry 11). -/
def Obligations.GoodStateAlwaysSteps : Prop := ∀ s : State, Inv s → ∃ t, step s = .next t

/-- R118, R12: in FAULT no step but the host's reset changes anything of the block but its two queues, on which the host
alone acts. R118 says that the block has no enabled step there; that its turn answers the same state is the model's choice
(log entry 11, and log entry 1 for the three ways it comes to move). -/
def Obligations.FaultIsSticky : Prop :=
  ∀ s : State, s.block.st = .fault →
    BlockSteps s .next ∧
    ∀ t, step s = .next t → ¬ ResetNext s →
      t.block = { s.block with inQ := t.block.inQ, outQ := t.block.outQ } ∧
      s.block.inQ <+: t.block.inQ ∧ t.block.outQ <:+ s.block.outQ

/-- R116: there is no transition BUSY to FAULT. -/
def Obligations.RunningCommandCannotFault : Prop :=
  ∀ s t : State, s.block.st = .busy → step s = .next t → t.block.st ≠ .fault

/-- R14: `rv` and `result` change only by reset, at the accept of a `CRC32` (the block becomes BUSY, `rv` becomes 0,
`result` is kept) and at its `S-CRC-DONE` (the block becomes IDLE). -/
def Obligations.ResultWrittenOnlyByCrc : Prop :=
  ∀ s t : State, step s = .next t → ¬ ResetNext s →
    (t.block.rv = s.block.rv ∧ t.block.result = s.block.result) ∨
    (s.block.st = .idle ∧ (∃ d seed length, s.offer = some d ∧ decode d = .ok (.crc32 seed length)) ∧
      t.block.st = .busy ∧ t.block.rv = false ∧ t.block.result = s.block.result) ∨
    (s.block.st = .busy ∧ s.block.op = 0x01 ∧ s.block.n = s.block.b.toNat ∧
      t.block.st = .idle ∧ t.block.rv = true ∧ t.block.result = s.block.acc ^^^ 0xFFFFFFFF)

/-- R10, R38: the latches change only by reset and at an accept: at no step by which the block does not accept a descriptor
(it is not the block's move, or the block is not IDLE, or nothing valid is on offer). -/
def Obligations.LatchesHoldUntilNextAccept : Prop :=
  ∀ s t : State, step s = .next t → ¬ ResetNext s → acceptsNext s = none →
    t.block.op = s.block.op ∧ t.block.a = s.block.a ∧ t.block.b = s.block.b ∧
      t.block.depth = s.block.depth ∧ t.block.filter = s.block.filter

/-- R28: until a reset, what the host has taken followed by what is still queued only ever grows at its end, by at most
one byte a step. The record of what the host has taken is the model's (log entry 5). -/
def Obligations.OutStreamKeepsOrder : Prop :=
  ∀ s t : State, step s = .next t → ¬ ResetNext s →
    ∃ pushed, pushed.length ≤ 1 ∧ t.taken ++ t.block.outQ = s.taken ++ s.block.outQ ++ pushed

/-- R27: until a reset, bytes leave `in_q` at its front and enter it at its end, at most one a step, and the block takes
one only while it is BUSY. -/
def Obligations.InStreamKeepsOrder : Prop :=
  ∀ s t : State, step s = .next t → ¬ ResetNext s →
    ∃ consumed offered, consumed.length + offered.length ≤ 1 ∧
      s.block.inQ ++ offered = consumed ++ t.block.inQ ∧ (s.block.st ≠ .busy → consumed = [])

/-- R136: an offer is accepted or refused by an IDLE block, or it waits unchanged, or it is withdrawn by reset; it is
never dropped silently. -/
def Obligations.OfferIsNeverDropped : Prop :=
  ∀ (s t : State) (d : Descriptor), s.offer = some d → step s = .next t → ¬ ResetNext s →
    t.offer = some d ∨
      (s.block.st = .idle ∧ t.offer = none ∧
        (refusalCode d = none ∧ t.block.st = .busy ∨
          ∃ c, refusalCode d = some c ∧ t.block.st = .fault ∧ t.block.cause = c.code))

/-- R22, R129, R23: what the host cannot tell apart it cannot tell apart after one more step either, so no output depends
on a latch, counter, `acc` or `result` of an earlier command. -/
def Obligations.HiddenStateIsNeverSeen : Prop :=
  ∀ s₁ s₂ t₁ : State, SameForHost s₁ s₂ → step s₁ = .next t₁ → ∃ t₂, step s₂ = .next t₂ ∧ SameForHost t₁ t₂

/-! ## The host's moves (spec/70_reset_and_hazards.md R141) and the registers -/

/-- R128: the reset event is enabled in every state and leaves every element R24 gives a value at that value, the offer
withdrawn, the host's own records and the open parameters as they were (log entries 1, 3, 5 and 20). Nothing is said of
the unspecified elements. -/
def Obligations.ResetEventEffect : Prop :=
  ∀ (s : State) (rest : List Turn), s.schedule = .host .reset :: rest →
    ∃ t, step s = .next t ∧ t.block.st = .idle ∧ t.block.cause = 0 ∧ t.block.rv = false ∧ t.block.inQ = [] ∧
      t.block.outQ = [] ∧ t.offer = none ∧ t.schedule = rest ∧ t.inDepth = s.inDepth ∧ t.outDepth = s.outDepth ∧
      t.regMap = s.regMap ∧
      t.taken = s.taken ∧ t.statusReads = s.statusReads ∧ t.resultReads = s.resultReads

/-- R129: after a reset the host cannot tell the machine from one whose block has never run. -/
def Obligations.ResetForgetsEverything : Prop :=
  ∀ s t : State, ResetNext s → step s = .next t → SameForHost t { t with block := State.reset.block }

/-- R141, R21, R27, R28: issuing a descriptor, offering a byte and taking a byte, each when enabled. That issuing needs no
offer outstanding is the model's reading (log entry 7). -/
def Obligations.HostDataMovesEffect : Prop :=
  ∀ (s : State) (rest : List Turn),
    (∀ d, s.schedule = .host (.issue d) :: rest → s.offer = none →
      step s = .next { s with schedule := rest, offer := some d }) ∧
    (∀ x, s.schedule = .host (.offer x) :: rest → Fits s.inDepth (s.block.inQ.length + 1) →
      step s = .next { s with schedule := rest, block := { s.block with inQ := s.block.inQ ++ [x] } }) ∧
    (∀ x q, s.schedule = .host .take :: rest → s.block.outQ = x :: q →
      step s = .next { s with schedule := rest, taken := s.taken ++ [x], block := { s.block with outQ := q } })

/-- R19, R33: a read of STATUS changes nothing of the block and gives the host the STATUS word of the state before. -/
def Obligations.StatusReadEffect : Prop :=
  ∀ (s : State) (rest : List Turn), s.schedule = .host .readStatus :: rest →
    step s = .next { s with schedule := rest, statusReads := s.statusReads ++ [statusWord s.block] }

/-- R19: the fields of the STATUS word. -/
def Obligations.StatusWordLayout : Prop :=
  ∀ k : Block,
    (statusWord k).extractLsb 1 0 = (match k.st with | .idle => 0#2 | .busy => 1#2 | .fault => 2#2) ∧
    (statusWord k).extractLsb 3 2 = 0#2 ∧
    (statusWord k).extractLsb 7 4 = k.cause ∧
    (statusWord k).getLsbD 8 = k.rv ∧
    (statusWord k).extractLsb 31 9 = 0#23

/-- R20, R14: a read of RESULT changes nothing of the block and gives the host one value: `result` when `rv = 1`. When
`rv = 0` it gives some value, of which nothing is said (a free value, log entry 2). -/
def Obligations.ResultReadEffect : Prop :=
  ∀ (s : State) (rest : List Turn), s.schedule = .host .readResult :: rest →
    ∃ t v, step s = .next t ∧ t.resultReads = s.resultReads ++ [v] ∧ (s.block.rv = true → v = s.block.result) ∧
      t = { s with schedule := rest, resultReads := t.resultReads, draws := t.draws }

/-! ## Frames: what an instruction leaves unchanged when it answers a next state -/

/-- What `CRC32` leaves unchanged: in IDLE `result`, `cause` and both queues; in BUSY the latches, `row`, `col`, `cause`,
the offer and all of `out_q`, and `result` and `rv` too unless it is done, and of `in_q` it removes at most the first
byte; in FAULT everything. Never anything of the host or the open parameters. -/
def Obligations.Crc32LeavesRestUnchanged : Prop :=
  ∀ (seed length : Word) (s t : State), exec (.crc32 seed length) s = .next t →
    t = { s with block := t.block, offer := t.offer } ∧
    (s.block.st = .idle → t.offer = none ∧
      t.block.result = s.block.result ∧ t.block.cause = s.block.cause ∧ t.block.inQ = s.block.inQ ∧
      t.block.outQ = s.block.outQ) ∧
    (s.block.st = .busy → t.offer = s.offer ∧
      t.block = { s.block with
        st := t.block.st, acc := t.block.acc, n := t.block.n, inQ := t.block.inQ,
        result := t.block.result, rv := t.block.rv } ∧
      (s.block.n ≠ s.block.b.toNat → t.block.st = .busy ∧ t.block.result = s.block.result ∧
        t.block.rv = s.block.rv) ∧
      (t.block.inQ = s.block.inQ ∨ t.block.inQ = s.block.inQ.tail)) ∧
    (s.block.st = .fault → t = s)

/-- What `FRAME` leaves unchanged: `rv`, `result` and `cause` always; in IDLE both queues; in BUSY the latches, `row`,
`col` and the offer, of `in_q` all but its first byte, and of `out_q` every byte in it, to which it adds at most one; in
FAULT everything. Never anything of the host or the open parameters. -/
def Obligations.FrameLeavesRestUnchanged : Prop :=
  ∀ (tag length : Word) (s t : State), exec (.frame tag length) s = .next t →
    t = { s with block := t.block, offer := t.offer } ∧
    t.block.rv = s.block.rv ∧ t.block.result = s.block.result ∧ t.block.cause = s.block.cause ∧
    (s.block.st = .idle → t.offer = none ∧ t.block.inQ = s.block.inQ ∧ t.block.outQ = s.block.outQ) ∧
    (s.block.st = .busy → t.offer = s.offer ∧
      t.block = { s.block with
        st := t.block.st, acc := t.block.acc, n := t.block.n, inQ := t.block.inQ, outQ := t.block.outQ } ∧
      (t.block.inQ = s.block.inQ ∨ t.block.inQ = s.block.inQ.tail) ∧
      ∃ pushed, pushed.length ≤ 1 ∧ t.block.outQ = s.block.outQ ++ pushed) ∧
    (s.block.st = .fault → t = s)

/-- What `PACK` leaves unchanged: `rv`, `result` and `acc` always, `cause` unless its operands are refused; in IDLE both
queues; in BUSY the latches, `n` and the offer, of `in_q` all but its first byte, and of `out_q` every byte in it, to
which it adds at most one; in FAULT everything. Never anything of the host or the open parameters. -/
def Obligations.PackLeavesRestUnchanged : Prop :=
  ∀ (width height : Word) (depth : Byte) (s t : State), exec (.pack width height depth) s = .next t →
    t = { s with block := t.block, offer := t.offer } ∧
    t.block.rv = s.block.rv ∧ t.block.result = s.block.result ∧ t.block.acc = s.block.acc ∧
    ((s.block.st ≠ .idle ∨ (Instr.pack width height depth).WellFormed) → t.block.cause = s.block.cause) ∧
    (s.block.st = .idle → t.offer = none ∧ t.block.inQ = s.block.inQ ∧ t.block.outQ = s.block.outQ) ∧
    (s.block.st = .busy → t.offer = s.offer ∧
      t.block = { s.block with
        st := t.block.st, row := t.block.row, col := t.block.col, inQ := t.block.inQ, outQ := t.block.outQ } ∧
      (t.block.inQ = s.block.inQ ∨ t.block.inQ = s.block.inQ.tail) ∧
      ∃ pushed, pushed.length ≤ 1 ∧ t.block.outQ = s.block.outQ ++ pushed) ∧
    (s.block.st = .fault → t = s)

/-! ## The host context (spec/43_encoder_context.md) -/

/-- R103, R107, R108: the file begins with the signature, ends with the 12-byte IEND chunk, and is `72 + len(z)` bytes
long, `z` being any compressed bytes (a parameter, log entry 9). For `z` of 2^32 bytes or more,
which R69 does not cover, it is about the model's own `frame` (the model's choice, log entry 16). -/
def Obligations.PngFileShape : Prop :=
  ∀ (img : ImageDescriptor) (z : List Byte),
    [0x89, 0x50, 0x4E, 0x47, 0x0D, 0x0A, 0x1A, 0x0A] <+: pngFile img z ∧
    [0x00, 0x00, 0x00, 0x00, 0x49, 0x45, 0x4E, 0x44, 0xAE, 0x42, 0x60, 0x82] <:+ pngFile img z ∧
    (pngFile img z).length = 72 + z.length
end

