-- ==== Sys2Proof/Laws/Checksum.lean ====
section
/-! SUPPORT. Small laws of the Checksum Engine (spec/40_crc32.md R56 to R59): the rounds are linear over XOR, a value
whose low bits are 0 only shifts, and the fold over one byte more. -/

namespace Sys2Proof.Machine

/-- One round is linear over XOR. -/
theorem crcRound_xor (x y : Word) : crcRound (x ^^^ y) = crcRound x ^^^ crcRound y := by
  have hshift : (x ^^^ y) >>> 1 = (x >>> 1) ^^^ (y >>> 1) := by
    ext i hi
    simp
  unfold crcRound
  rw [hshift, BitVec.getLsbD_xor]
  generalize x >>> 1 = X
  generalize y >>> 1 = Y
  cases x.getLsbD 0 <;> cases y.getLsbD 0 <;> simp
  · ac_rfl
  · ac_rfl
  · ext i hi
    simp only [BitVec.getElem_xor]
    cases X[i] <;> cases Y[i] <;> cases poly[i] <;> rfl

/-- Any number of rounds is linear over XOR. -/
theorem crcRounds_xor (k : Nat) (x y : Word) : crcRounds k (x ^^^ y) = crcRounds k x ^^^ crcRounds k y := by
  induction k generalizing x y with
  | zero => rfl
  | succ k ih => simp [crcRounds, crcRound_xor, ih]

/-- A value whose low `k` bits are 0 meets no XOR in `k` rounds. -/
theorem crcRounds_of_low_zero (k : Nat) (x : Word) (h : ∀ i, i < k → x.getLsbD i = false) :
    crcRounds k x = x >>> k := by
  induction k generalizing x with
  | zero => simp [crcRounds]
  | succ k ih =>
    have hr : crcRound x = x >>> 1 := by
      unfold crcRound
      rw [h 0 (by omega)]
      rfl
    rw [crcRounds, hr, ih]
    · ext i hi
      simp [show 1 + (k + i) = k + 1 + i by omega]
    · intro i hi
      simpa using h (1 + i) (by omega)

/-- The fold over one byte more (R58). -/
theorem crcFold_snoc (c : Word) (s : List Byte) (x : Byte) : crcFold c (s ++ [x]) = upd (crcFold c s) x := by
  simp [crcFold]

/-- The fold over two ranges in a row (R58). -/
theorem crcFold_append (c : Word) (s t : List Byte) : crcFold c (s ++ t) = crcFold (crcFold c s) t := by
  simp [crcFold]

end Sys2Proof.Machine
end

