-- ==== Sys2Proof/Laws/Decode.lean ====
section
/-! SUPPORT. The fields of a descriptor that was put together from its fields (spec/30_encoding.md R41, R42), and a
descriptor put together again from its own; what `decode` can answer; and how it stands to R52. -/

namespace Sys2Proof

open Sys2Proof.Machine

theorem fieldOp_encodeWords (o d f r : Byte) (a b : Word) : fieldOp (descriptorOfWords (controlWord o d f r) a b) = o := by
  ext k hk
  simp only [fieldOp, descriptorOfWords, controlWord, BitVec.getElem_extractLsb', BitVec.getLsbD_append]
  simp [show k < 8 from hk, show k < 32 by omega]

theorem fieldDepth_encodeWords (o d f r : Byte) (a b : Word) :
    fieldDepth (descriptorOfWords (controlWord o d f r) a b) = d := by
  ext k hk
  simp only [fieldDepth, descriptorOfWords, controlWord, BitVec.getElem_extractLsb', BitVec.getLsbD_append]
  simp [show 8 + k < 32 by omega, show ¬ (8 + k < 8) by omega, show 8 + k - 8 = k by omega, hk]

theorem fieldFilter_encodeWords (o d f r : Byte) (a b : Word) :
    fieldFilter (descriptorOfWords (controlWord o d f r) a b) = f := by
  ext k hk
  simp only [fieldFilter, descriptorOfWords, controlWord, BitVec.getElem_extractLsb', BitVec.getLsbD_append]
  simp [show 16 + k < 32 by omega, show ¬ (16 + k < 8) by omega, show ¬ (16 + k - 8 < 8) by omega,
    show 16 + k - 8 - 8 = k by omega, hk]

theorem fieldRsv_encodeWords (o d f r : Byte) (a b : Word) :
    fieldRsv (descriptorOfWords (controlWord o d f r) a b) = r := by
  ext k hk
  simp only [fieldRsv, descriptorOfWords, controlWord, BitVec.getElem_extractLsb', BitVec.getLsbD_append]
  simp [show 24 + k < 32 by omega, show ¬ (24 + k < 8) by omega, show ¬ (24 + k - 8 < 8) by omega,
    show ¬ (24 + k - 8 - 8 < 8) by omega, show 24 + k - 8 - 8 - 8 = k by omega, hk]

theorem fieldA_encodeWords (w0 a b : Word) : fieldA (descriptorOfWords w0 a b) = a := by
  ext k hk
  simp only [fieldA, descriptorOfWords, BitVec.getElem_extractLsb', BitVec.getLsbD_append]
  simp [show ¬ (32 + k < 32) by omega, show 32 + k - 32 = k by omega, hk]

theorem fieldB_encodeWords (w0 a b : Word) : fieldB (descriptorOfWords w0 a b) = b := by
  ext k hk
  simp only [fieldB, descriptorOfWords, BitVec.getElem_extractLsb', BitVec.getLsbD_append]
  simp [show ¬ (64 + k < 32) by omega, show ¬ (64 + k - 32 < 32) by omega, show 64 + k - 32 - 32 = k by omega, hk]

/-- A descriptor is its six fields, put together. -/
theorem descriptor_eq_fields (d : Descriptor) :
    d = descriptorOfWords (controlWord (fieldOp d) (fieldDepth d) (fieldFilter d) (fieldRsv d)) (fieldA d) (fieldB d) := by
  ext k hk
  rw [← BitVec.getLsbD_eq_getElem]
  simp only [descriptorOfWords, controlWord, ← BitVec.getLsbD_eq_getElem, BitVec.getLsbD_append, fieldOp, fieldDepth,
    fieldFilter, fieldRsv, fieldA, fieldB, BitVec.getLsbD_extractLsb']
  by_cases h1 : k < 8
  · simp [h1, show k < 32 by omega]
  by_cases h2 : k < 16
  · simp [h1, show k < 32 by omega, show k - 8 < 8 by omega, show 8 + (k - 8) = k by omega]
  by_cases h3 : k < 24
  · simp [h1, show k < 32 by omega, show ¬ (k - 8 < 8) by omega, show k - 8 - 8 < 8 by omega,
      show 16 + (k - 8 - 8) = k by omega]
  by_cases h4 : k < 32
  · simp [h1, h4, show ¬ (k - 8 < 8) by omega, show ¬ (k - 8 - 8 < 8) by omega, show k - 8 - 8 - 8 < 8 by omega,
      show 24 + (k - 8 - 8 - 8) = k by omega]
  by_cases h5 : k < 64
  · simp [h4, show k - 32 < 32 by omega, show 32 + (k - 32) = k by omega]
  · simp [h4, show ¬ (k - 32 < 32) by omega, show k - 32 - 32 < 32 by omega, show 64 + (k - 32 - 32) = k by omega]

/-- What a descriptor that decodes holds, command by command (R42, R43, R49). -/
theorem decode_ok_cases {d : Descriptor} {i : Instr} (h : decode d = .ok i) :
    fieldRsv d = 0 ∧ fieldFilter d = 0 ∧
      ((fieldOp d = opCrc32 ∧ fieldDepth d = 0 ∧ i = .crc32 (fieldA d) (fieldB d)) ∨
        (fieldOp d = opFrame ∧ fieldDepth d = 0 ∧ i = .frame (fieldA d) (fieldB d)) ∨
        (fieldOp d = opPack ∧ i = .pack (fieldA d) (fieldB d) (fieldDepth d))) := by
  unfold decode at h
  split at h
  · cases h
  next hop =>
  split at h
  · cases h
  next hr =>
  rw [not_not] at hr
  split at h
  · next hp =>
    split at h
    · cases h
    next hf =>
    rw [not_not] at hf
    cases h
    exact ⟨hr, hf, .inr (.inr ⟨hp, rfl⟩)⟩
  next hp =>
  split at h
  · cases h
  next hz =>
  rw [not_or, not_not, not_not] at hz
  split at h
  · next hc =>
    cases h
    exact ⟨hr, hz.2, .inl ⟨hc, hz.1, rfl⟩⟩
  · next hc =>
    cases h
    have hf : fieldOp d = opFrame := by
      by_contra hf
      exact hop ⟨hc, hf, hp⟩
    exact ⟨hr, hz.2, .inr (.inl ⟨hf, hz.1, rfl⟩)⟩

/-- Bits 23:8 together are the fields DEPTH and FILTER (R42). -/
theorem middle_ne_zero_iff (d : Descriptor) : d.extractLsb 23 8 ≠ 0#16 ↔ fieldDepth d ≠ 0 ∨ fieldFilter d ≠ 0 := by
  rw [← not_iff_not, not_not, not_or, not_not, not_not]
  have hbit : ∀ i, i < 16 → (d.extractLsb 23 8).getLsbD i = d.getLsbD (8 + i) := by
    intro i hi
    rw [BitVec.getLsbD_extract]
    simp [show i ≤ 23 - 8 by omega]
  constructor
  · intro h
    constructor <;> apply BitVec.eq_of_getLsbD_eq <;> intro i hi
    · have := hbit i (by omega)
      rw [h] at this
      simpa [fieldDepth, hi] using this.symm
    · have := hbit (8 + i) (by omega)
      rw [h] at this
      simpa [fieldFilter, hi, show 8 + (8 + i) = 16 + i by omega] using this.symm
  · rintro ⟨h1, h2⟩
    apply BitVec.eq_of_getLsbD_eq
    intro i hi
    rw [hbit i hi]
    by_cases h8 : i < 8
    · have := congrArg (fun v => v.getLsbD i) h1
      simpa [fieldDepth, h8] using this
    · have := congrArg (fun v => v.getLsbD (i - 8)) h2
      simpa [fieldFilter, show i - 8 < 8 by omega, show 16 + (i - 8) = 8 + i by omega] using this

/-- `decode`, with the operand checks of `PACK` after it, refuses exactly what R52 refuses, with the same code. -/
theorem refusalCode_eq (d : Descriptor) :
    refusalCode d = match decode d with
      | .error c => some c
      | .ok (.pack w h dp) => packRefusal w h dp
      | .ok _ => none := by
  have e1 : d.extractLsb 7 0 = fieldOp d := rfl
  have e2 : d.extractLsb 31 24 = fieldRsv d := rfl
  have e3 : d.extractLsb 23 16 = fieldFilter d := rfl
  have e4 : d.extractLsb 15 8 = fieldDepth d := rfl
  have e5 : d.extractLsb 63 32 = fieldA d := rfl
  have e6 : d.extractLsb 95 64 = fieldB d := rfl
  simp only [refusalCode, e1, e2, e3, e4, e5, e6, middle_ne_zero_iff, decode, opCrc32, opFrame, opPack]
  by_cases h1 : fieldOp d = 1#8
  · simp [h1]
    split_ifs <;> simp_all
  by_cases h2 : fieldOp d = 2#8
  · simp [h2]
    split_ifs <;> simp_all
  by_cases h3 : fieldOp d = 3#8
  · by_cases hr : fieldRsv d = 0#8
    · by_cases hf : fieldFilter d = 0#8
      · simp [h3, hr, hf, packRefusal]
      · simp [h3, hr, hf]
    · simp [h3, hr]
  · simp [h1, h2, h3]

end Sys2Proof
end

