-- ==== Sys2Proof/Laws/State.lean ====
section
/-! SUPPORT. One lemma per field per update of the block and of the machine, each true by unfolding, so that no later
proof unfolds a record update. -/

namespace Sys2Proof.Machine

/-! `latch` (R112): the five latches, the three counters and `st`. -/

@[simp] theorem latch_st (o : Byte) (a b : Word) (d f : Byte) (x : Block) : (latch o a b d f x).st = .busy := rfl
@[simp] theorem latch_cause (o : Byte) (a b : Word) (d f : Byte) (x : Block) : (latch o a b d f x).cause = x.cause := rfl
@[simp] theorem latch_rv (o : Byte) (a b : Word) (d f : Byte) (x : Block) : (latch o a b d f x).rv = x.rv := rfl
@[simp] theorem latch_result (o : Byte) (a b : Word) (d f : Byte) (x : Block) : (latch o a b d f x).result = x.result := rfl
@[simp] theorem latch_op (o : Byte) (a b : Word) (d f : Byte) (x : Block) : (latch o a b d f x).op = o := rfl
@[simp] theorem latch_a (o : Byte) (a b : Word) (d f : Byte) (x : Block) : (latch o a b d f x).a = a := rfl
@[simp] theorem latch_b (o : Byte) (a b : Word) (d f : Byte) (x : Block) : (latch o a b d f x).b = b := rfl
@[simp] theorem latch_depth (o : Byte) (a b : Word) (d f : Byte) (x : Block) : (latch o a b d f x).depth = d := rfl
@[simp] theorem latch_filter (o : Byte) (a b : Word) (d f : Byte) (x : Block) : (latch o a b d f x).filter = f := rfl
@[simp] theorem latch_acc (o : Byte) (a b : Word) (d f : Byte) (x : Block) : (latch o a b d f x).acc = x.acc := rfl
@[simp] theorem latch_n (o : Byte) (a b : Word) (d f : Byte) (x : Block) : (latch o a b d f x).n = 0 := rfl
@[simp] theorem latch_row (o : Byte) (a b : Word) (d f : Byte) (x : Block) : (latch o a b d f x).row = 0 := rfl
@[simp] theorem latch_col (o : Byte) (a b : Word) (d f : Byte) (x : Block) : (latch o a b d f x).col = 0 := rfl
@[simp] theorem latch_inQ (o : Byte) (a b : Word) (d f : Byte) (x : Block) : (latch o a b d f x).inQ = x.inQ := rfl
@[simp] theorem latch_outQ (o : Byte) (a b : Word) (d f : Byte) (x : Block) : (latch o a b d f x).outQ = x.outQ := rfl

/-! `faultEntry` (R114): `st` and `cause` only. -/

@[simp] theorem faultEntry_st (c : FaultCode) (x : Block) : (faultEntry c x).st = .fault := rfl
@[simp] theorem faultEntry_cause (c : FaultCode) (x : Block) : (faultEntry c x).cause = c.code := rfl
@[simp] theorem faultEntry_rv (c : FaultCode) (x : Block) : (faultEntry c x).rv = x.rv := rfl
@[simp] theorem faultEntry_result (c : FaultCode) (x : Block) : (faultEntry c x).result = x.result := rfl
@[simp] theorem faultEntry_op (c : FaultCode) (x : Block) : (faultEntry c x).op = x.op := rfl
@[simp] theorem faultEntry_a (c : FaultCode) (x : Block) : (faultEntry c x).a = x.a := rfl
@[simp] theorem faultEntry_b (c : FaultCode) (x : Block) : (faultEntry c x).b = x.b := rfl
@[simp] theorem faultEntry_depth (c : FaultCode) (x : Block) : (faultEntry c x).depth = x.depth := rfl
@[simp] theorem faultEntry_filter (c : FaultCode) (x : Block) : (faultEntry c x).filter = x.filter := rfl
@[simp] theorem faultEntry_acc (c : FaultCode) (x : Block) : (faultEntry c x).acc = x.acc := rfl
@[simp] theorem faultEntry_n (c : FaultCode) (x : Block) : (faultEntry c x).n = x.n := rfl
@[simp] theorem faultEntry_row (c : FaultCode) (x : Block) : (faultEntry c x).row = x.row := rfl
@[simp] theorem faultEntry_col (c : FaultCode) (x : Block) : (faultEntry c x).col = x.col := rfl
@[simp] theorem faultEntry_inQ (c : FaultCode) (x : Block) : (faultEntry c x).inQ = x.inQ := rfl
@[simp] theorem faultEntry_outQ (c : FaultCode) (x : Block) : (faultEntry c x).outQ = x.outQ := rfl

/-! Accept of the three commands (R64, R76, R93). -/

@[simp] theorem crc32Accept_st (a b : Word) (x : Block) : (crc32Accept a b x).st = .busy := rfl
@[simp] theorem crc32Accept_cause (a b : Word) (x : Block) : (crc32Accept a b x).cause = x.cause := rfl
@[simp] theorem crc32Accept_rv (a b : Word) (x : Block) : (crc32Accept a b x).rv = false := rfl
@[simp] theorem crc32Accept_result (a b : Word) (x : Block) : (crc32Accept a b x).result = x.result := rfl
@[simp] theorem crc32Accept_op (a b : Word) (x : Block) : (crc32Accept a b x).op = opCrc32 := rfl
@[simp] theorem crc32Accept_a (a b : Word) (x : Block) : (crc32Accept a b x).a = a := rfl
@[simp] theorem crc32Accept_b (a b : Word) (x : Block) : (crc32Accept a b x).b = b := rfl
@[simp] theorem crc32Accept_depth (a b : Word) (x : Block) : (crc32Accept a b x).depth = 0 := rfl
@[simp] theorem crc32Accept_filter (a b : Word) (x : Block) : (crc32Accept a b x).filter = 0 := rfl
@[simp] theorem crc32Accept_acc (a b : Word) (x : Block) : (crc32Accept a b x).acc = a ^^^ crcMask := rfl
@[simp] theorem crc32Accept_n (a b : Word) (x : Block) : (crc32Accept a b x).n = 0 := rfl
@[simp] theorem crc32Accept_row (a b : Word) (x : Block) : (crc32Accept a b x).row = 0 := rfl
@[simp] theorem crc32Accept_col (a b : Word) (x : Block) : (crc32Accept a b x).col = 0 := rfl
@[simp] theorem crc32Accept_inQ (a b : Word) (x : Block) : (crc32Accept a b x).inQ = x.inQ := rfl
@[simp] theorem crc32Accept_outQ (a b : Word) (x : Block) : (crc32Accept a b x).outQ = x.outQ := rfl

@[simp] theorem frameAccept_st (a b : Word) (x : Block) : (frameAccept a b x).st = .busy := rfl
@[simp] theorem frameAccept_cause (a b : Word) (x : Block) : (frameAccept a b x).cause = x.cause := rfl
@[simp] theorem frameAccept_rv (a b : Word) (x : Block) : (frameAccept a b x).rv = x.rv := rfl
@[simp] theorem frameAccept_result (a b : Word) (x : Block) : (frameAccept a b x).result = x.result := rfl
@[simp] theorem frameAccept_op (a b : Word) (x : Block) : (frameAccept a b x).op = opFrame := rfl
@[simp] theorem frameAccept_a (a b : Word) (x : Block) : (frameAccept a b x).a = a := rfl
@[simp] theorem frameAccept_b (a b : Word) (x : Block) : (frameAccept a b x).b = b := rfl
@[simp] theorem frameAccept_depth (a b : Word) (x : Block) : (frameAccept a b x).depth = 0 := rfl
@[simp] theorem frameAccept_filter (a b : Word) (x : Block) : (frameAccept a b x).filter = 0 := rfl
@[simp] theorem frameAccept_acc (a b : Word) (x : Block) : (frameAccept a b x).acc = crcMask := rfl
@[simp] theorem frameAccept_n (a b : Word) (x : Block) : (frameAccept a b x).n = 0 := rfl
@[simp] theorem frameAccept_row (a b : Word) (x : Block) : (frameAccept a b x).row = 0 := rfl
@[simp] theorem frameAccept_col (a b : Word) (x : Block) : (frameAccept a b x).col = 0 := rfl
@[simp] theorem frameAccept_inQ (a b : Word) (x : Block) : (frameAccept a b x).inQ = x.inQ := rfl
@[simp] theorem frameAccept_outQ (a b : Word) (x : Block) : (frameAccept a b x).outQ = x.outQ := rfl

@[simp] theorem packAccept_st (a b : Word) (d : Byte) (x : Block) : (packAccept a b d x).st = .busy := rfl
@[simp] theorem packAccept_cause (a b : Word) (d : Byte) (x : Block) : (packAccept a b d x).cause = x.cause := rfl
@[simp] theorem packAccept_rv (a b : Word) (d : Byte) (x : Block) : (packAccept a b d x).rv = x.rv := rfl
@[simp] theorem packAccept_result (a b : Word) (d : Byte) (x : Block) : (packAccept a b d x).result = x.result := rfl
@[simp] theorem packAccept_op (a b : Word) (d : Byte) (x : Block) : (packAccept a b d x).op = opPack := rfl
@[simp] theorem packAccept_a (a b : Word) (d : Byte) (x : Block) : (packAccept a b d x).a = a := rfl
@[simp] theorem packAccept_b (a b : Word) (d : Byte) (x : Block) : (packAccept a b d x).b = b := rfl
@[simp] theorem packAccept_depth (a b : Word) (d : Byte) (x : Block) : (packAccept a b d x).depth = d := rfl
@[simp] theorem packAccept_filter (a b : Word) (d : Byte) (x : Block) : (packAccept a b d x).filter = filterNone := rfl
@[simp] theorem packAccept_acc (a b : Word) (d : Byte) (x : Block) : (packAccept a b d x).acc = x.acc := rfl
@[simp] theorem packAccept_n (a b : Word) (d : Byte) (x : Block) : (packAccept a b d x).n = 0 := rfl
@[simp] theorem packAccept_row (a b : Word) (d : Byte) (x : Block) : (packAccept a b d x).row = 0 := rfl
@[simp] theorem packAccept_col (a b : Word) (d : Byte) (x : Block) : (packAccept a b d x).col = 0 := rfl
@[simp] theorem packAccept_inQ (a b : Word) (d : Byte) (x : Block) : (packAccept a b d x).inQ = x.inQ := rfl
@[simp] theorem packAccept_outQ (a b : Word) (d : Byte) (x : Block) : (packAccept a b d x).outQ = x.outQ := rfl

/-! The done steps (R66, R81, R96). -/

@[simp] theorem crcDone_st (x : Block) : (crcDone x).st = .idle := rfl
@[simp] theorem crcDone_cause (x : Block) : (crcDone x).cause = x.cause := rfl
@[simp] theorem crcDone_rv (x : Block) : (crcDone x).rv = true := rfl
@[simp] theorem crcDone_result (x : Block) : (crcDone x).result = x.acc ^^^ crcMask := rfl
@[simp] theorem crcDone_op (x : Block) : (crcDone x).op = x.op := rfl
@[simp] theorem crcDone_a (x : Block) : (crcDone x).a = x.a := rfl
@[simp] theorem crcDone_b (x : Block) : (crcDone x).b = x.b := rfl
@[simp] theorem crcDone_depth (x : Block) : (crcDone x).depth = x.depth := rfl
@[simp] theorem crcDone_filter (x : Block) : (crcDone x).filter = x.filter := rfl
@[simp] theorem crcDone_acc (x : Block) : (crcDone x).acc = x.acc := rfl
@[simp] theorem crcDone_n (x : Block) : (crcDone x).n = x.n := rfl
@[simp] theorem crcDone_row (x : Block) : (crcDone x).row = x.row := rfl
@[simp] theorem crcDone_col (x : Block) : (crcDone x).col = x.col := rfl
@[simp] theorem crcDone_inQ (x : Block) : (crcDone x).inQ = x.inQ := rfl
@[simp] theorem crcDone_outQ (x : Block) : (crcDone x).outQ = x.outQ := rfl

@[simp] theorem frmDone_st (x : Block) : (frmDone x).st = .idle := rfl
@[simp] theorem frmDone_cause (x : Block) : (frmDone x).cause = x.cause := rfl
@[simp] theorem frmDone_rv (x : Block) : (frmDone x).rv = x.rv := rfl
@[simp] theorem frmDone_result (x : Block) : (frmDone x).result = x.result := rfl
@[simp] theorem frmDone_op (x : Block) : (frmDone x).op = x.op := rfl
@[simp] theorem frmDone_a (x : Block) : (frmDone x).a = x.a := rfl
@[simp] theorem frmDone_b (x : Block) : (frmDone x).b = x.b := rfl
@[simp] theorem frmDone_depth (x : Block) : (frmDone x).depth = x.depth := rfl
@[simp] theorem frmDone_filter (x : Block) : (frmDone x).filter = x.filter := rfl
@[simp] theorem frmDone_acc (x : Block) : (frmDone x).acc = x.acc := rfl
@[simp] theorem frmDone_n (x : Block) : (frmDone x).n = x.n := rfl
@[simp] theorem frmDone_row (x : Block) : (frmDone x).row = x.row := rfl
@[simp] theorem frmDone_col (x : Block) : (frmDone x).col = x.col := rfl
@[simp] theorem frmDone_inQ (x : Block) : (frmDone x).inQ = x.inQ := rfl
@[simp] theorem frmDone_outQ (x : Block) : (frmDone x).outQ = x.outQ := rfl

@[simp] theorem pckDone_st (x : Block) : (pckDone x).st = .idle := rfl
@[simp] theorem pckDone_cause (x : Block) : (pckDone x).cause = x.cause := rfl
@[simp] theorem pckDone_rv (x : Block) : (pckDone x).rv = x.rv := rfl
@[simp] theorem pckDone_result (x : Block) : (pckDone x).result = x.result := rfl
@[simp] theorem pckDone_op (x : Block) : (pckDone x).op = x.op := rfl
@[simp] theorem pckDone_a (x : Block) : (pckDone x).a = x.a := rfl
@[simp] theorem pckDone_b (x : Block) : (pckDone x).b = x.b := rfl
@[simp] theorem pckDone_depth (x : Block) : (pckDone x).depth = x.depth := rfl
@[simp] theorem pckDone_filter (x : Block) : (pckDone x).filter = x.filter := rfl
@[simp] theorem pckDone_acc (x : Block) : (pckDone x).acc = x.acc := rfl
@[simp] theorem pckDone_n (x : Block) : (pckDone x).n = x.n := rfl
@[simp] theorem pckDone_row (x : Block) : (pckDone x).row = x.row := rfl
@[simp] theorem pckDone_col (x : Block) : (pckDone x).col = x.col := rfl
@[simp] theorem pckDone_inQ (x : Block) : (pckDone x).inQ = x.inQ := rfl
@[simp] theorem pckDone_outQ (x : Block) : (pckDone x).outQ = x.outQ := rfl

/-! The two updates of the machine a block step makes. -/

@[simp] theorem withBlock_block (x : State) (k : Block) : (withBlock x k).block = k := rfl
@[simp] theorem withBlock_offer (x : State) (k : Block) : (withBlock x k).offer = x.offer := rfl
@[simp] theorem withBlock_inDepth (x : State) (k : Block) : (withBlock x k).inDepth = x.inDepth := rfl
@[simp] theorem withBlock_outDepth (x : State) (k : Block) : (withBlock x k).outDepth = x.outDepth := rfl
@[simp] theorem withBlock_regMap (x : State) (k : Block) : (withBlock x k).regMap = x.regMap := rfl
@[simp] theorem withBlock_schedule (x : State) (k : Block) : (withBlock x k).schedule = x.schedule := rfl
@[simp] theorem withBlock_taken (x : State) (k : Block) : (withBlock x k).taken = x.taken := rfl
@[simp] theorem withBlock_statusReads (x : State) (k : Block) : (withBlock x k).statusReads = x.statusReads := rfl
@[simp] theorem withBlock_resultReads (x : State) (k : Block) : (withBlock x k).resultReads = x.resultReads := rfl
@[simp] theorem withBlock_draws (x : State) (k : Block) : (withBlock x k).draws = x.draws := rfl

@[simp] theorem takeOffer_block (x : State) (k : Block) : (takeOffer x k).block = k := rfl
@[simp] theorem takeOffer_offer (x : State) (k : Block) : (takeOffer x k).offer = none := rfl
@[simp] theorem takeOffer_inDepth (x : State) (k : Block) : (takeOffer x k).inDepth = x.inDepth := rfl
@[simp] theorem takeOffer_outDepth (x : State) (k : Block) : (takeOffer x k).outDepth = x.outDepth := rfl
@[simp] theorem takeOffer_regMap (x : State) (k : Block) : (takeOffer x k).regMap = x.regMap := rfl
@[simp] theorem takeOffer_schedule (x : State) (k : Block) : (takeOffer x k).schedule = x.schedule := rfl
@[simp] theorem takeOffer_taken (x : State) (k : Block) : (takeOffer x k).taken = x.taken := rfl
@[simp] theorem takeOffer_statusReads (x : State) (k : Block) : (takeOffer x k).statusReads = x.statusReads := rfl
@[simp] theorem takeOffer_resultReads (x : State) (k : Block) : (takeOffer x k).resultReads = x.resultReads := rfl
@[simp] theorem takeOffer_draws (x : State) (k : Block) : (takeOffer x k).draws = x.draws := rfl

/-! The host moves (R141); `H-TAKE` is in Laws/Host.lean, since it looks at `out_q`. -/

@[simp] theorem hostIssue_block (d : Descriptor) (x : State) : (hostIssue d x).block = x.block := rfl
@[simp] theorem hostIssue_offer (d : Descriptor) (x : State) : (hostIssue d x).offer = some d := rfl
@[simp] theorem hostIssue_inDepth (d : Descriptor) (x : State) : (hostIssue d x).inDepth = x.inDepth := rfl
@[simp] theorem hostIssue_outDepth (d : Descriptor) (x : State) : (hostIssue d x).outDepth = x.outDepth := rfl
@[simp] theorem hostIssue_regMap (d : Descriptor) (x : State) : (hostIssue d x).regMap = x.regMap := rfl
@[simp] theorem hostIssue_schedule (d : Descriptor) (x : State) : (hostIssue d x).schedule = x.schedule := rfl
@[simp] theorem hostIssue_taken (d : Descriptor) (x : State) : (hostIssue d x).taken = x.taken := rfl
@[simp] theorem hostIssue_statusReads (d : Descriptor) (x : State) : (hostIssue d x).statusReads = x.statusReads := rfl
@[simp] theorem hostIssue_resultReads (d : Descriptor) (x : State) : (hostIssue d x).resultReads = x.resultReads := rfl
@[simp] theorem hostIssue_draws (d : Descriptor) (x : State) : (hostIssue d x).draws = x.draws := rfl

@[simp] theorem hostOffer_block (y : Byte) (x : State) : (hostOffer y x).block = { x.block with inQ := x.block.inQ ++ [y] } := rfl
@[simp] theorem hostOffer_offer (y : Byte) (x : State) : (hostOffer y x).offer = x.offer := rfl
@[simp] theorem hostOffer_inDepth (y : Byte) (x : State) : (hostOffer y x).inDepth = x.inDepth := rfl
@[simp] theorem hostOffer_outDepth (y : Byte) (x : State) : (hostOffer y x).outDepth = x.outDepth := rfl
@[simp] theorem hostOffer_regMap (y : Byte) (x : State) : (hostOffer y x).regMap = x.regMap := rfl
@[simp] theorem hostOffer_schedule (y : Byte) (x : State) : (hostOffer y x).schedule = x.schedule := rfl
@[simp] theorem hostOffer_taken (y : Byte) (x : State) : (hostOffer y x).taken = x.taken := rfl
@[simp] theorem hostOffer_statusReads (y : Byte) (x : State) : (hostOffer y x).statusReads = x.statusReads := rfl
@[simp] theorem hostOffer_resultReads (y : Byte) (x : State) : (hostOffer y x).resultReads = x.resultReads := rfl
@[simp] theorem hostOffer_draws (y : Byte) (x : State) : (hostOffer y x).draws = x.draws := rfl

@[simp] theorem hostReadStatus_block (x : State) : (hostReadStatus x).block = x.block := rfl
@[simp] theorem hostReadStatus_offer (x : State) : (hostReadStatus x).offer = x.offer := rfl
@[simp] theorem hostReadStatus_inDepth (x : State) : (hostReadStatus x).inDepth = x.inDepth := rfl
@[simp] theorem hostReadStatus_outDepth (x : State) : (hostReadStatus x).outDepth = x.outDepth := rfl
@[simp] theorem hostReadStatus_regMap (x : State) : (hostReadStatus x).regMap = x.regMap := rfl
@[simp] theorem hostReadStatus_schedule (x : State) : (hostReadStatus x).schedule = x.schedule := rfl
@[simp] theorem hostReadStatus_taken (x : State) : (hostReadStatus x).taken = x.taken := rfl
@[simp] theorem hostReadStatus_statusReads (x : State) : (hostReadStatus x).statusReads = x.statusReads ++ [statusWord x.block] := rfl
@[simp] theorem hostReadStatus_resultReads (x : State) : (hostReadStatus x).resultReads = x.resultReads := rfl
@[simp] theorem hostReadStatus_draws (x : State) : (hostReadStatus x).draws = x.draws := rfl

@[simp] theorem hostReadResult_block (x : State) : (hostReadResult x).block = x.block := rfl
@[simp] theorem hostReadResult_offer (x : State) : (hostReadResult x).offer = x.offer := rfl
@[simp] theorem hostReadResult_inDepth (x : State) : (hostReadResult x).inDepth = x.inDepth := rfl
@[simp] theorem hostReadResult_outDepth (x : State) : (hostReadResult x).outDepth = x.outDepth := rfl
@[simp] theorem hostReadResult_regMap (x : State) : (hostReadResult x).regMap = x.regMap := rfl
@[simp] theorem hostReadResult_schedule (x : State) : (hostReadResult x).schedule = x.schedule := rfl
@[simp] theorem hostReadResult_taken (x : State) : (hostReadResult x).taken = x.taken := rfl
@[simp] theorem hostReadResult_statusReads (x : State) : (hostReadResult x).statusReads = x.statusReads := rfl
@[simp] theorem hostReadResult_resultReads (x : State) : (hostReadResult x).resultReads = x.resultReads ++ [resultWord x.block x.draws] := rfl
@[simp] theorem hostReadResult_draws (x : State) : (hostReadResult x).draws = x.draws + resultDraws x.block := rfl

@[simp] theorem hostReset_block (x : State) : (hostReset x).block = resetBlock x.draws := rfl
@[simp] theorem hostReset_offer (x : State) : (hostReset x).offer = none := rfl
@[simp] theorem hostReset_inDepth (x : State) : (hostReset x).inDepth = x.inDepth := rfl
@[simp] theorem hostReset_outDepth (x : State) : (hostReset x).outDepth = x.outDepth := rfl
@[simp] theorem hostReset_regMap (x : State) : (hostReset x).regMap = x.regMap := rfl
@[simp] theorem hostReset_schedule (x : State) : (hostReset x).schedule = x.schedule := rfl
@[simp] theorem hostReset_taken (x : State) : (hostReset x).taken = x.taken := rfl
@[simp] theorem hostReset_statusReads (x : State) : (hostReset x).statusReads = x.statusReads := rfl
@[simp] theorem hostReset_resultReads (x : State) : (hostReset x).resultReads = x.resultReads := rfl
@[simp] theorem hostReset_draws (x : State) : (hostReset x).draws = x.draws + resetDraws := rfl

/-! The reset event's block: the elements R24 gives a value. -/

@[simp] theorem resetBlock_st (k : Nat) : (resetBlock k).st = .idle := rfl
@[simp] theorem resetBlock_cause (k : Nat) : (resetBlock k).cause = 0 := rfl
@[simp] theorem resetBlock_rv (k : Nat) : (resetBlock k).rv = false := rfl
@[simp] theorem resetBlock_inQ (k : Nat) : (resetBlock k).inQ = [] := rfl
@[simp] theorem resetBlock_outQ (k : Nat) : (resetBlock k).outQ = [] := rfl

end Sys2Proof.Machine
end

