-- ==== Sys2Proof/Laws/Ops.lean ====
section
/-! SUPPORT. What each shared operation can do, once: the queues, the operand checks of `PACK`, the way a block step
becomes a step of the machine, and the step of each running command. -/

namespace Sys2Proof.Machine

/-- `InPop` answers exactly when `in_q` is not empty, and then removes its first byte and nothing else (R27). -/
theorem inPop_eq_some_iff {blk rest : Block} {x : Byte} :
    inPop blk = some (x, rest) ↔ ∃ q, blk.inQ = x :: q ∧ rest = { blk with inQ := q } := by
  unfold inPop
  split
  · next hq => constructor <;> simp [hq]
  · next y q hq =>
    constructor
    · intro h
      obtain ⟨rfl, rfl⟩ := Prod.mk.inj (Option.some.inj h)
      exact ⟨q, hq, rfl⟩
    · rintro ⟨q', hq', rfl⟩
      obtain ⟨rfl, rfl⟩ := List.cons.inj (hq.symm.trans hq')
      rfl

theorem inPop_eq_none_iff {blk : Block} : inPop blk = none ↔ blk.inQ = [] := by
  unfold inPop
  split <;> next hq => simp [hq]

/-- `OutPush` answers exactly when `out_q` has room, and then appends the byte and changes nothing else (R28). -/
theorem outPush_eq_some_iff {d : Capacity} {x : Byte} {blk blk' : Block} :
    outPush d x blk = some blk' ↔ hasRoom d blk.outQ.length = true ∧ blk' = { blk with outQ := blk.outQ ++ [x] } := by
  unfold outPush
  split <;> next hr => simp [hr, eq_comm (a := blk')]

theorem outPush_eq_none_iff {d : Capacity} {x : Byte} {blk : Block} :
    outPush d x blk = none ↔ hasRoom d blk.outQ.length = false := by
  unfold outPush
  split <;> simp_all

/-- Room means that one more element fits. -/
theorem hasRoom_iff_fits {d : Capacity} {len : Nat} : hasRoom d len = true ↔ Fits d (len + 1) := by
  cases d <;> simp [hasRoom, Fits]

/-- A shorter queue fits where a longer one does. -/
theorem fits_mono {d : Capacity} {k len : Nat} (h : Fits d len) (hk : k ≤ len) : Fits d k := by
  cases d with
  | unbounded => trivial
  | slots extra => exact Nat.le_trans hk h

theorem fits_zero (d : Capacity) : Fits d 0 := by
  cases d <;> simp [Fits]

/-- The operand checks of `PACK` refuse nothing exactly when the command is well formed (R46, R52). -/
theorem packRefusal_eq_none_iff {w h : Word} {d : Byte} :
    packRefusal w h d = none ↔ (Instr.pack w h d).WellFormed := by
  simp only [packRefusal, Instr.WellFormed, legalDepths, List.mem_cons, List.not_mem_nil, or_false]
  split
  · next hd => simp_all
  · next hd =>
    rw [not_not] at hd
    split
    · next hz => simpa using fun _ hw => hz.resolve_left hw
    · next hz => simpa using And.intro hd (not_or.mp hz)

/-- Every row of a legal image has at least one byte (R86). -/
theorem byteWidth_pos {w : Word} {d : Byte} (hw : w ≠ 0) (hd : d ∈ legalDepths) : 1 ≤ byteWidth w.toNat d.toNat := by
  have hw' : 1 ≤ w.toNat := by
    rcases Nat.eq_zero_or_pos w.toNat with h | h
    · exact absurd (BitVec.eq_of_toNat_eq h) hw
    · exact h
  have hd' : 1 ≤ d.toNat := by
    simp only [legalDepths, List.mem_cons, List.not_mem_nil, or_false] at hd
    rcases hd with rfl | rfl | rfl | rfl | rfl <;> decide
  have hp : 1 ≤ w.toNat * d.toNat := Nat.mul_le_mul hw' hd'
  unfold byteWidth
  omega

/-- A block step taken, or waiting. -/
theorem advance_eq_next_iff {s t : State} {o : Option Block} :
    advance s o = .next t ↔ (∃ blk, o = some blk ∧ t = withBlock s blk) ∨ (o = none ∧ t = s) := by
  unfold advance
  split <;> simp_all [eq_comm]

/-- `advance` always answers a next state. -/
theorem advance_total (s : State) (o : Option Block) : ∃ t, advance s o = .next t := by
  cases o <;> exact ⟨_, rfl⟩

/-- The three phases of a command's block step (R12). -/
theorem commandStep_eq_next_iff {s t : State} {acc : Host.Outcome State Fault Refusal} {run : Option Block} :
    commandStep s acc run = .next t ↔
      (s.block.st = .idle ∧ acc = .next t) ∨
      (s.block.st = .busy ∧ ((∃ blk, run = some blk ∧ t = withBlock s blk) ∨ (run = none ∧ t = s))) ∨
      (s.block.st = .fault ∧ t = s) := by
  unfold commandStep
  split <;> next h => simp [h, advance_eq_next_iff, eq_comm (a := s)]

/-- What a running `CRC32` can do: `S-CRC-BYTE` or `S-CRC-DONE` (R65, R66). -/
theorem crc32Running_cases {blk blk' : Block} (h : crc32Running blk = some blk') :
    blk.op = opCrc32 ∧
      ((blk.n < blk.b.toNat ∧ ∃ x q, blk.inQ = x :: q ∧
          blk' = { blk with inQ := q, acc := upd blk.acc x, n := blk.n + 1 }) ∨
        (blk.n = blk.b.toNat ∧ blk' = crcDone blk)) := by
  unfold crc32Running at h
  split at h
  · next hop =>
    refine ⟨hop, ?_⟩
    split at h
    · next hn =>
      left
      unfold crcByte at h
      split at h
      · next x rest hp =>
        obtain ⟨q, hq, rfl⟩ := inPop_eq_some_iff.mp hp
        exact ⟨hn, x, q, hq, (Option.some.inj h).symm⟩
      · exact absurd h (by simp)
    · split at h
      · next hn => exact .inr ⟨hn, (Option.some.inj h).symm⟩
      · exact absurd h (by simp)
  · exact absurd h (by simp)

/-- What a running `FRAME` can do: one of the five steps of R77 to R81. -/
theorem frameRunning_cases {d : Capacity} {blk blk' : Block} (h : frameRunning d blk = some blk') :
    blk.op = opFrame ∧
      ((blk.n < 4 ∧ hasRoom d blk.outQ.length = true ∧
          blk' = { blk with outQ := blk.outQ ++ [be32Byte blk.b blk.n], n := blk.n + 1 }) ∨
        (4 ≤ blk.n ∧ blk.n < 8 ∧ hasRoom d blk.outQ.length = true ∧
          blk' = { blk with outQ := blk.outQ ++ [be32Byte blk.a (blk.n - 4)],
                            acc := upd blk.acc (be32Byte blk.a (blk.n - 4)), n := blk.n + 1 }) ∨
        (8 ≤ blk.n ∧ blk.n < 8 + blk.b.toNat ∧ hasRoom d blk.outQ.length = true ∧ ∃ x q, blk.inQ = x :: q ∧
          blk' = { blk with inQ := q, outQ := blk.outQ ++ [x], acc := upd blk.acc x, n := blk.n + 1 }) ∨
        (8 + blk.b.toNat ≤ blk.n ∧ blk.n < 12 + blk.b.toNat ∧ hasRoom d blk.outQ.length = true ∧
          blk' = { blk with outQ := blk.outQ ++ [be32Byte (blk.acc ^^^ crcMask) (blk.n - 8 - blk.b.toNat)],
                            n := blk.n + 1 }) ∨
        (blk.n = 12 + blk.b.toNat ∧ blk' = frmDone blk)) := by
  unfold frameRunning at h
  split at h
  · next hop =>
    refine ⟨hop, ?_⟩
    split at h
    · next h4 =>
      obtain ⟨hr, rfl⟩ := outPush_eq_some_iff.mp h
      exact .inl ⟨h4, hr, rfl⟩
    split at h
    · next h4 h8 =>
      obtain ⟨hr, rfl⟩ := outPush_eq_some_iff.mp h
      exact .inr (.inl ⟨by omega, h8, hr, rfl⟩)
    split at h
    · next h8 hp =>
      unfold frmPay at h
      split at h
      · next x rest hpop =>
        obtain ⟨q, hq, rfl⟩ := inPop_eq_some_iff.mp hpop
        obtain ⟨hr, rfl⟩ := outPush_eq_some_iff.mp h
        exact .inr (.inr (.inl ⟨by omega, hp, hr, x, q, hq, rfl⟩))
      · exact absurd h (by simp)
    split at h
    · next hp hc =>
      obtain ⟨hr, rfl⟩ := outPush_eq_some_iff.mp h
      exact .inr (.inr (.inr (.inl ⟨by omega, hc, hr, rfl⟩)))
    split at h
    · next hd => exact .inr (.inr (.inr (.inr ⟨hd, (Option.some.inj h).symm⟩)))
    · exact absurd h (by simp)
  · exact absurd h (by simp)

/-- What a running `PACK` can do: one of the three steps of R94 to R96, `S-PCK-DATA` in its two forms. -/
theorem packRunning_cases {d : Capacity} {blk blk' : Block} (h : packRunning d blk = some blk') :
    blk.op = opPack ∧
      ((blk.row < blk.b.toNat ∧ blk.col = 0 ∧ hasRoom d blk.outQ.length = true ∧
          blk' = { blk with outQ := blk.outQ ++ [blk.filter], col := 1 }) ∨
        (blk.row < blk.b.toNat ∧ 1 ≤ blk.col ∧ blk.col < latchedByteWidth blk ∧ hasRoom d blk.outQ.length = true ∧
          ∃ x q, blk.inQ = x :: q ∧
            blk' = { blk with inQ := q, outQ := blk.outQ ++ [x], col := blk.col + 1 }) ∨
        (blk.row < blk.b.toNat ∧ 1 ≤ blk.col ∧ blk.col = latchedByteWidth blk ∧ hasRoom d blk.outQ.length = true ∧
          ∃ x q, blk.inQ = x :: q ∧
            blk' = { blk with inQ := q, outQ := blk.outQ ++ [x], row := blk.row + 1, col := 0 }) ∨
        (blk.row = blk.b.toNat ∧ blk' = pckDone blk)) := by
  unfold packRunning at h
  split at h
  · next hop =>
    refine ⟨hop, ?_⟩
    split at h
    · next hr =>
      split at h
      · next hc =>
        obtain ⟨hroom, rfl⟩ := outPush_eq_some_iff.mp h
        exact .inl ⟨hr, hc, hroom, rfl⟩
      split at h
      · next hc hw =>
        unfold pckData at h
        split at h
        · next x rest hpop =>
          obtain ⟨q, hq, rfl⟩ := inPop_eq_some_iff.mp hpop
          obtain ⟨hroom, rfl⟩ := outPush_eq_some_iff.mp h
          have hbw : latchedByteWidth { blk with inQ := q } = latchedByteWidth blk := rfl
          by_cases he : blk.col = latchedByteWidth blk
          · have hnext : pckNext { blk with inQ := q } = { blk with inQ := q, row := blk.row + 1, col := 0 } := by
              rw [pckNext, hbw, if_pos he]
            rw [hnext] at hroom ⊢
            exact .inr (.inr (.inl ⟨hr, by omega, he, hroom, x, q, hq, rfl⟩))
          · have hnext : pckNext { blk with inQ := q } = { blk with inQ := q, col := blk.col + 1 } := by
              rw [pckNext, hbw, if_neg he]
            rw [hnext] at hroom ⊢
            exact .inr (.inl ⟨hr, by omega, by omega, hroom, x, q, hq, rfl⟩)
        · exact absurd h (by simp)
      · exact absurd h (by simp)
    · split at h
      · next he => exact .inr (.inr (.inr ⟨he, (Option.some.inj h).symm⟩))
      · exact absurd h (by simp)
  · exact absurd h (by simp)

end Sys2Proof.Machine
end

