-- ==== Sys2Proof/Laws/Host.lean ====
section
/-! SUPPORT. What the host's moves can do, once: `H-TAKE`, which looks at `out_q`; what none of the six touches; the word
and the draw a read of RESULT gives (spec/70_reset_and_hazards.md R141). -/

namespace Sys2Proof.Machine

/-- `H-TAKE` is enabled exactly when `out_q` is not empty (R28). -/
theorem take_enabled_iff {s : State} : hostEnabled .take s = true ↔ ∃ x q, s.block.outQ = x :: q := by
  cases h : s.block.outQ <;> simp [hostEnabled, h]

/-- `H-OFFER` is enabled exactly when one more byte fits (R27). -/
theorem offer_enabled_iff {x : Byte} {s : State} :
    hostEnabled (.offer x) s = true ↔ Fits s.inDepth (s.block.inQ.length + 1) :=
  hasRoom_iff_fits

/-- `H-ISSUE` is enabled exactly when no offer is outstanding (R141). -/
theorem issue_enabled_iff {d : Descriptor} {s : State} : hostEnabled (.issue d) s = true ↔ s.offer = none := by
  simp [hostEnabled]

/-- `H-TAKE` moves the first byte of `out_q` to the host, and changes nothing else (R28). -/
theorem hostTake_eq {s : State} {x : Byte} {q : List Byte} (h : s.block.outQ = x :: q) :
    hostTake s = { s with block := { s.block with outQ := q }, taken := s.taken ++ [x] } := by
  simp [hostTake, h]

theorem hostTake_of_empty {s : State} (h : s.block.outQ = []) : hostTake s = s := by
  simp [hostTake, h]

/-- No move of the host adds a turn, uses one up, or changes an open parameter. -/
theorem hostMove_keeps (m : HostMove) (s : State) :
    (hostMove m s).schedule = s.schedule ∧ (hostMove m s).inDepth = s.inDepth ∧
      (hostMove m s).outDepth = s.outDepth ∧ (hostMove m s).regMap = s.regMap := by
  cases m with
  | take => cases h : s.block.outQ <;> simp [hostMove, hostTake, h]
  | _ => simp [hostMove]

/-- No move of the host but `H-RESET` changes anything of the block but its two queues (R141). -/
theorem hostMove_block (m : HostMove) (s : State) (hm : m ≠ .reset) :
    (hostMove m s).block =
      { s.block with inQ := (hostMove m s).block.inQ, outQ := (hostMove m s).block.outQ } := by
  cases m with
  | take =>
    simp only [hostMove, hostTake]
    split <;> rfl
  | reset => exact absurd rfl hm
  | _ => simp [hostMove]

/-- A valid RESULT is read as `result`, without a draw (R20). -/
theorem resultWord_of_valid {blk : Block} (h : blk.rv = true) (k : Nat) :
    resultWord blk k = blk.result ∧ resultDraws blk = 0 := by
  simp [resultWord, resultDraws, h]

/-- An invalid RESULT is read as the next free word, and the next read as another (R14). -/
theorem resultWord_of_invalid {blk : Block} (h : blk.rv = false) (k : Nat) :
    resultWord blk k = Config.freeWord k ∧ resultDraws blk = 1 := by
  simp [resultWord, resultDraws, h]

end Sys2Proof.Machine
end

