-- ==== Sys2Proof/Laws/PerInstr.lean ====
section
/-! SUPPORT. Statements made for every instruction, one lemma per constructor: the shape of its descriptor. -/

namespace Sys2Proof.Laws

/-- The descriptor of a command (section 4 of spec/30_encoding.md): the three 32-bit words it is made of, written out
from the map of W0, W1, W2 there; and the must-be-zero fields of R49. -/
def WordShape.Statement (i : Instr) : Prop :=
  fieldRsv (encode i) = 0 ∧ fieldFilter (encode i) = 0 ∧
    match i with
    | .crc32 seed length =>
      fieldOp (encode i) = 0x01 ∧ fieldDepth (encode i) = 0 ∧ fieldA (encode i) = seed ∧ fieldB (encode i) = length
    | .frame tag length =>
      fieldOp (encode i) = 0x02 ∧ fieldDepth (encode i) = 0 ∧ fieldA (encode i) = tag ∧ fieldB (encode i) = length
    | .pack width height depth =>
      fieldOp (encode i) = 0x03 ∧ fieldDepth (encode i) = depth ∧ fieldA (encode i) = width ∧
        fieldB (encode i) = height

theorem WordShape.crc32 (seed length : Word) : WordShape.Statement (.crc32 seed length) :=
  ⟨fieldRsv_encodeWords .., fieldFilter_encodeWords .., fieldOp_encodeWords .., fieldDepth_encodeWords ..,
    fieldA_encodeWords .., fieldB_encodeWords ..⟩

theorem WordShape.frame (tag length : Word) : WordShape.Statement (.frame tag length) :=
  ⟨fieldRsv_encodeWords .., fieldFilter_encodeWords .., fieldOp_encodeWords .., fieldDepth_encodeWords ..,
    fieldA_encodeWords .., fieldB_encodeWords ..⟩

theorem WordShape.pack (width height : Word) (depth : Byte) : WordShape.Statement (.pack width height depth) :=
  ⟨fieldRsv_encodeWords .., fieldFilter_encodeWords .., fieldOp_encodeWords .., fieldDepth_encodeWords ..,
    fieldA_encodeWords .., fieldB_encodeWords ..⟩

end Sys2Proof.Laws
end

