-- ==== Sys2Proof/Laws/Step.lean ====
section
/-! SUPPORT. What one step can do, once: the block's move, one constructor per rule of the spec, and the machine's
step, which is a block move or an enabled host move. Every invariant is derived from these. -/

namespace Sys2Proof.Machine

/-- The block has no enabled step (R117, R118): IDLE without an offer, FAULT, or a running command that waits. -/
def NoBlockStep (s : State) : Prop :=
  (s.block.st = .idle ∧ s.offer = none) ∨ s.block.st = .fault ∨ Waiting s

/-- Everything the block's turn can do when it answers a next state. -/
inductive BlockMove (s : State) : State → Prop where
  | wait (h : NoBlockStep s) : BlockMove s s
  /-- `S-ACCEPT-FAULT` (R114). -/
  | refuse (d : Descriptor) (c : FaultCode) (hst : s.block.st = .idle) (ho : s.offer = some d)
      (hd : decode d = .error c ∨ ∃ w h dp, decode d = .ok (.pack w h dp) ∧ packRefusal w h dp = some c) :
      BlockMove s (takeOffer s (faultEntry c s.block))
  /-- `S-ACCEPT` of `CRC32` (R112, R64). -/
  | acceptCrc32 (d : Descriptor) (seed length : Word) (hst : s.block.st = .idle) (ho : s.offer = some d)
      (hd : decode d = .ok (.crc32 seed length)) : BlockMove s (takeOffer s (crc32Accept seed length s.block))
  /-- `S-ACCEPT` of `FRAME` (R112, R76). -/
  | acceptFrame (d : Descriptor) (tag length : Word) (hst : s.block.st = .idle) (ho : s.offer = some d)
      (hd : decode d = .ok (.frame tag length)) : BlockMove s (takeOffer s (frameAccept tag length s.block))
  /-- `S-ACCEPT` of `PACK` (R112, R93). -/
  | acceptPack (d : Descriptor) (w h : Word) (dp : Byte) (hst : s.block.st = .idle) (ho : s.offer = some d)
      (hd : decode d = .ok (.pack w h dp)) (hr : packRefusal w h dp = none) :
      BlockMove s (takeOffer s (packAccept w h dp s.block))
  | runCrc32 (blk : Block) (hst : s.block.st = .busy) (hr : crc32Running s.block = some blk) :
      BlockMove s (withBlock s blk)
  | runFrame (blk : Block) (hst : s.block.st = .busy) (hr : frameRunning s.outDepth s.block = some blk) :
      BlockMove s (withBlock s blk)
  | runPack (blk : Block) (hst : s.block.st = .busy) (hr : packRunning s.outDepth s.block = some blk) :
      BlockMove s (withBlock s blk)

/-- Which command the latches stand for (R10). -/
theorem runningInstr_cases {blk : Block} {i : Instr} (h : runningInstr blk = some i) :
    (blk.op = opCrc32 ∧ i = .crc32 blk.a blk.b) ∨ (blk.op = opFrame ∧ i = .frame blk.a blk.b) ∨
      (blk.op = opPack ∧ i = .pack blk.a blk.b blk.depth) := by
  unfold runningInstr at h
  split at h
  · next ho => exact .inl ⟨ho, (Option.some.inj h).symm⟩
  split at h
  · next ho => exact .inr (.inl ⟨ho, (Option.some.inj h).symm⟩)
  split at h
  · next ho => exact .inr (.inr ⟨ho, (Option.some.inj h).symm⟩)
  · exact absurd h (by simp)

/-- The block's turn in IDLE. -/
theorem offerTurn_cases {s t : State} (hst : s.block.st = .idle) (h : offerTurn s = .next t) : BlockMove s t := by
  unfold offerTurn at h
  split at h
  · next ho =>
    cases h
    exact .wait (.inl ⟨hst, ho⟩)
  · next d ho =>
    split at h
    · next c hd =>
      cases h
      exact .refuse d c hst ho (.inl hd)
    · next i hd =>
      cases i with
      | crc32 seed length =>
        simp only [exec, execCrc32, commandStep, hst] at h
        cases h
        exact .acceptCrc32 d seed length hst ho hd
      | frame tag length =>
        simp only [exec, execFrame, commandStep, hst] at h
        cases h
        exact .acceptFrame d tag length hst ho hd
      | pack w ht dp =>
        simp only [exec, execPack, commandStep, hst, packOffer] at h
        split at h
        · next c hr =>
          cases h
          exact .refuse d c hst ho (.inr ⟨w, ht, dp, hd, hr⟩)
        · next hr =>
          cases h
          exact .acceptPack d w ht dp hst ho hd hr

/-- The block's turn in BUSY. -/
theorem busyTurn_cases {s t : State} (hst : s.block.st = .busy) (h : busyTurn s = .next t) : BlockMove s t := by
  unfold busyTurn at h
  split at h
  · exact absurd h (by simp)
  · next i hi =>
    rcases runningInstr_cases hi with ⟨ho, rfl⟩ | ⟨ho, rfl⟩ | ⟨ho, rfl⟩
    · simp only [exec, execCrc32, commandStep, hst] at h
      rcases advance_eq_next_iff.mp h with ⟨blk, hr, rfl⟩ | ⟨hr, rfl⟩
      · exact .runCrc32 blk hst hr
      · exact .wait (.inr (.inr ⟨hst, .inl ⟨ho, hr⟩⟩))
    · simp only [exec, execFrame, commandStep, hst] at h
      rcases advance_eq_next_iff.mp h with ⟨blk, hr, rfl⟩ | ⟨hr, rfl⟩
      · exact .runFrame blk hst hr
      · exact .wait (.inr (.inr ⟨hst, .inr (.inl ⟨ho, hr⟩)⟩))
    · simp only [exec, execPack, commandStep, hst] at h
      rcases advance_eq_next_iff.mp h with ⟨blk, hr, rfl⟩ | ⟨hr, rfl⟩
      · exact .runPack blk hst hr
      · exact .wait (.inr (.inr ⟨hst, .inr (.inr ⟨ho, hr⟩)⟩))

/-- The block's turn. -/
theorem blockTurn_cases {s t : State} (h : blockTurn s = .next t) : BlockMove s t := by
  unfold blockTurn at h
  split at h
  · next hst => exact offerTurn_cases hst h
  · next hst => exact busyTurn_cases hst h
  · next hst =>
    cases h
    exact .wait (.inr (.inl hst))

/-- One step: a block move, with or without a turn of its own, or an enabled host move. -/
theorem step_cases {s t : State} (h : step s = .next t) :
    (∃ rest, (s.schedule = rest ∨ s.schedule = .block :: rest) ∧ BlockMove { s with schedule := rest } t) ∨
      (∃ m rest, s.schedule = .host m :: rest ∧ hostEnabled m s = true ∧
        t = hostMove m { s with schedule := rest }) := by
  unfold step turn at h
  split at h
  · next hs => exact .inl ⟨s.schedule, .inl rfl, blockTurn_cases h⟩
  · next rest hs => exact .inl ⟨rest, .inr hs, blockTurn_cases h⟩
  · next m rest hs =>
    split at h
    · next he =>
      cases h
      exact .inr ⟨m, rest, hs, he, rfl⟩
    · exact .inl ⟨s.schedule, .inl rfl, blockTurn_cases h⟩

/-- What the block's turn answers, whatever is scheduled, is what a step answers when the block is to move. -/
theorem blockSteps_of_blockTurn {s : State} {move : State → Host.Outcome State Fault Refusal}
    (h : ∀ rest, blockTurn { s with schedule := rest } = move { s with schedule := rest }) : BlockSteps s move := by
  refine ⟨fun hs => ?_, fun rest hs => ?_, fun m rest hs he => ?_⟩
  · simp only [step, turn, hs]
    exact h s.schedule
  · simp only [step, turn, hs]
    exact h rest
  · simp only [step, turn, hs, he]
    exact h s.schedule

/-- A run of one step more goes on from the state the first step answers. -/
theorem runSteps_succ {k : Nat} {s t : State} (h : step s = .next t) : runSteps (k + 1) s = runSteps k t := by
  rw [runSteps, h]

end Sys2Proof.Machine
end

