-- ==== Sys2Proof/Laws/Run.lean ====
section
/-! SUPPORT. Runs: what the record of accepts records (spec/60_exceptions.md R112), what is stuck
(spec/70_reset_and_hazards.md R140), and that no step depends on REGMAP (spec/20_memory.md R34). -/

namespace Sys2Proof

open Sys2Proof.Machine

/-- The next step is recorded as an accept of `d` exactly when the block is to move, IDLE, and `d` is on offer and valid
(R112). -/
theorem acceptsNext_eq_some_iff {s : State} {d : Descriptor} :
    acceptsNext s = some d ↔
      blockNext s = true ∧ s.block.st = .idle ∧ s.offer = some d ∧ refusalCode d = none := by
  by_cases h : blockNext s = true ∧ s.block.st = .idle
  · simp [acceptsNext, h, Option.filter_eq_some_iff]
  · simp only [acceptsNext, h, if_false]
    constructor
    · intro hn
      cases hn
    · rintro ⟨h1, h2, _⟩
      exact absurd ⟨h1, h2⟩ h

/-- The block is to move unless an enabled host move is next. -/
theorem blockNext_eq_false_iff {s : State} :
    blockNext s = false ↔ ∃ m rest, s.schedule = .host m :: rest ∧ hostEnabled m s = true := by
  unfold blockNext
  split <;> next h => simp [h]

/-- A step on which an enabled host move is next is that move (R141). -/
theorem step_of_hostEnabled {s : State} {m : HostMove} {rest : List Turn} (hs : s.schedule = .host m :: rest)
    (he : hostEnabled m s = true) : step s = .next (hostMove m { s with schedule := rest }) := by
  simp [step, turn, hs, he]

/-- So a step that the host does not make is a move of the block. -/
theorem blockMove_of_blockNext {s t : State} (hb : blockNext s = true) (h : step s = .next t) :
    ∃ rest, BlockMove { s with schedule := rest } t := by
  rcases step_cases h with ⟨rest, _, hm⟩ | ⟨m, rest, hs, he, _⟩
  · exact ⟨rest, hm⟩
  · exact absurd (hb.symm.trans (blockNext_eq_false_iff.mpr ⟨m, rest, hs, he⟩)) (by decide)

/-- With nothing scheduled and no offer, a step schedules nothing, offers nothing and accepts nothing. -/
theorem quiet_step {s t : State} (hs : s.schedule = []) (ho : s.offer = none) (h : step s = .next t) :
    t.schedule = [] ∧ t.offer = none ∧ recordAccept s = id := by
  refine ⟨?_, ?_, ?_⟩
  · rcases step_cases h with ⟨rest, hr, hb⟩ | ⟨m, rest, hm, _⟩
    · have hrest : rest = [] := by simpa [hs, eq_comm] using hr
      subst hrest
      cases hb <;> rfl
    · simp [hs] at hm
  · rcases step_cases h with ⟨rest, _, hb⟩ | ⟨m, rest, hm, _⟩
    · cases hb <;> first | exact ho | rfl
    · simp [hs] at hm
  · funext accepted
    simp [recordAccept, hs, acceptsNext, ho]

/-- So a run from such a state adds nothing to the record. -/
theorem acceptedIn_quiet (k : Nat) {s : State} (hs : s.schedule = []) (ho : s.offer = none)
    (accepted : List Descriptor) : acceptedIn k s accepted = accepted := by
  induction k generalizing s with
  | zero => rfl
  | succ k ih =>
    unfold acceptedIn
    split
    · next t ht =>
      obtain ⟨h1, h2, h3⟩ := quiet_step hs ho ht
      rw [h3]
      exact ih h1 h2
    · rfl
    · rfl

/-- A waiting block has no step of its own to take. -/
theorem blockMove_of_waiting {s t : State} (hw : Waiting s) (hb : BlockMove s t) : t = s := by
  obtain ⟨hst, hw⟩ := hw
  cases hb with
  | wait => rfl
  | refuse d c h => exact absurd (hst.symm.trans h) (by decide)
  | acceptCrc32 d a b h => exact absurd (hst.symm.trans h) (by decide)
  | acceptFrame d a b h => exact absurd (hst.symm.trans h) (by decide)
  | acceptPack d a b e h => exact absurd (hst.symm.trans h) (by decide)
  | runCrc32 blk _ hr =>
    have hop := (crc32Running_cases hr).1
    rcases hw with ⟨_, hn⟩ | ⟨ho, _⟩ | ⟨ho, _⟩
    · simp [hn] at hr
    · exact absurd (hop.symm.trans ho) (by decide)
    · exact absurd (hop.symm.trans ho) (by decide)
  | runFrame blk _ hr =>
    have hop := (frameRunning_cases hr).1
    rcases hw with ⟨ho, _⟩ | ⟨_, hn⟩ | ⟨ho, _⟩
    · exact absurd (hop.symm.trans ho) (by decide)
    · simp [hn] at hr
    · exact absurd (hop.symm.trans ho) (by decide)
  | runPack blk _ hr =>
    have hop := (packRunning_cases hr).1
    rcases hw with ⟨ho, _⟩ | ⟨ho, _⟩ | ⟨_, hn⟩
    · exact absurd (hop.symm.trans ho) (by decide)
    · exact absurd (hop.symm.trans ho) (by decide)
    · simp [hn] at hr

/-- A block whose next step needs a byte of an empty IN waits, whatever OUT holds. -/
theorem waiting_of_waitsOnIn {s : State} (h : WaitsOnIn s.block) : Waiting s := by
  obtain ⟨hst, hq, h⟩ := h
  refine ⟨hst, ?_⟩
  rcases h with ⟨ho, hn⟩ | ⟨ho, hlo, hhi⟩ | ⟨ho, hr, hlo, hhi⟩
  · exact .inl ⟨ho, by simp [crc32Running, ho, hn, crcByte, inPop, hq]⟩
  · refine .inr (.inl ⟨ho, ?_⟩)
    simp [frameRunning, ho, show ¬ s.block.n < 4 by omega, show ¬ s.block.n < 8 by omega, hhi, frmPay, inPop, hq]
  · refine .inr (.inr ⟨ho, ?_⟩)
    simp [packRunning, ho, hr, show s.block.col ≠ 0 by omega, hhi, pckData, inPop, hq]

/-- A block that waits on IN goes on waiting unless the next step is the host's offer or its reset. -/
theorem waitsOnIn_step {s t : State} (hw : WaitsOnIn s.block)
    (hq : ∀ u ∈ s.schedule, u ≠ .host .reset ∧ ∀ x, u ≠ .host (.offer x)) (h : step s = .next t) :
    WaitsOnIn t.block ∧ ∀ u ∈ t.schedule, u ∈ s.schedule := by
  rcases step_cases h with ⟨rest, hr, hb⟩ | ⟨m, rest, hm, _, rfl⟩
  · obtain rfl := blockMove_of_waiting (s := { s with schedule := rest }) (waiting_of_waitsOnIn hw) hb
    refine ⟨hw, fun u hu => ?_⟩
    rcases hr with hr | hr <;> rw [hr]
    · exact hu
    · exact List.mem_cons_of_mem _ hu
  · obtain ⟨h1, h2⟩ := hq (.host m) (hm ▸ List.mem_cons_self)
    refine ⟨?_, fun u hu => ?_⟩
    · cases m with
      | take =>
        simp only [hostMove, hostTake]
        split <;> exact hw
      | reset => exact absurd rfl h1
      | offer x => exact absurd rfl (h2 x)
      | issue d => exact hw
      | readStatus => exact hw
      | readResult => exact hw
    · rw [(hostMove_keeps m _).1] at hu
      rw [hm]
      exact List.mem_cons_of_mem _ hu

/-- "Waiting on IN with the host offering nothing more" is stuck, whatever else the host still does but reset (R140). -/
theorem stuck_of_waitsOnIn {s : State} (hw : WaitsOnIn s.block)
    (hq : ∀ u ∈ s.schedule, u ≠ .host .reset ∧ ∀ x, u ≠ .host (.offer x)) : Stuck s := by
  intro k
  induction k generalizing s with
  | zero =>
    intro t h
    obtain rfl : s = t := by simpa [runSteps] using h
    exact waiting_of_waitsOnIn hw
  | succ k ih =>
    intro t h
    unfold runSteps at h
    split at h
    · next u hu =>
      obtain ⟨hw', hs'⟩ := waitsOnIn_step hw hq hu
      exact ih hw' (fun v hv => hq v (hs' v hv)) t h
    · cases h
    · cases h

/-- No run from a stuck state is ever over (R140). -/
theorem not_runOver_of_stuck {s : State} (hs : Stuck s) (descriptors : List Descriptor) (k : Nat) :
    ¬ RunOver descriptors s k := by
  rintro ⟨_, t, ht, hidle, _⟩
  exact absurd (hidle.symm.trans (hs k t ht).1) (by decide)

/-- The block's turn does not depend on REGMAP (R34). -/
theorem blockTurn_regMap {s t : State} (r : RegMap) (h : blockTurn s = .next t) :
    blockTurn { s with regMap := r } = .next { t with regMap := r } := by
  unfold blockTurn at h ⊢
  cases hst : s.block.st <;> simp only [hst] at h ⊢
  · unfold offerTurn at h ⊢
    cases ho : s.offer with
    | none => simp_all
    | some d =>
      simp only [ho] at h ⊢
      cases hd : decode d with
      | error c =>
        simp only [hd] at h ⊢
        cases h
        rfl
      | ok i =>
        simp only [hd] at h ⊢
        cases i <;> simp only [exec, execCrc32, execFrame, execPack, commandStep, hst, packOffer] at h ⊢
        · cases h
          rfl
        · cases h
          rfl
        · split at h <;> cases h <;> rfl
  · unfold busyTurn at h ⊢
    cases hi : runningInstr s.block with
    | none => simp [hi] at h
    | some i =>
      simp only [hi] at h ⊢
      cases i <;> simp only [exec, execCrc32, execFrame, execPack, commandStep, hst, advance] at h ⊢ <;>
        split at h <;> cases h <;> rfl
  · cases h
    rfl

/-- Nor does a host move. -/
theorem hostMove_regMap (m : HostMove) (s : State) (r : RegMap) :
    hostMove m { s with regMap := r } = { hostMove m s with regMap := r } := by
  cases m with
  | take =>
    simp only [hostMove, hostTake]
    split <;> rfl
  | _ => rfl

theorem hostEnabled_regMap (m : HostMove) (s : State) (r : RegMap) :
    hostEnabled m { s with regMap := r } = hostEnabled m s := by
  cases m <;> rfl

/-- "No rule depends on it" (R34): a step is the same under every REGMAP. -/
theorem step_regMap {s t : State} (r : RegMap) (h : step s = .next t) :
    step { s with regMap := r } = .next { t with regMap := r } := by
  obtain ⟨blk, offer, inDepth, outDepth, map, schedule, taken, statusReads, resultReads, draws⟩ := s
  cases schedule with
  | nil => exact blockTurn_regMap r h
  | cons u rest =>
    cases u with
    | block => exact blockTurn_regMap r h
    | host m =>
      have he := hostEnabled_regMap m
        ⟨blk, offer, inDepth, outDepth, map, .host m :: rest, taken, statusReads, resultReads, draws⟩ r
      simp only [step, turn] at h ⊢
      rw [he]
      split at h
      · next hm =>
        cases h
        rw [if_pos hm, ← hostMove_regMap]
      · next hm =>
        rw [if_neg hm]
        exact blockTurn_regMap r h

end Sys2Proof
end

