-- ==== Sys2Proof/Laws/Streams.lean ====
section
/-! SUPPORT. Small laws of the byte sequences: `be32` and ranges (spec/00_scope.md section 5), and the rows of `pack`
(spec/42_pack.md R87). -/

namespace Sys2Proof.Machine

@[simp] theorem be32_length (v : Word) : (be32 v).length = 4 := rfl

/-- `be32(v)[k]` for `k` in 0..3. -/
theorem be32_getElem? (v : Word) (k : Nat) (h : k < 4) : (be32 v)[k]? = some (be32Byte v k) := by
  have hk : k = 0 ∨ k = 1 ∨ k = 2 ∨ k = 3 := by omega
  rcases hk with rfl | rfl | rfl | rfl <;> rfl

/-- A range that is a middle part of a sequence. -/
theorem slice_middle (x y z : List Byte) (lo hi : Nat) (hlo : lo = x.length) (hhi : hi = x.length + y.length) :
    slice (x ++ y ++ z) lo hi = y := by
  subst hlo hhi
  simp [slice, List.append_assoc]

/-- The elements of a range. -/
theorem slice_getElem? (s : List Byte) (lo hi k : Nat) (h : k < hi - lo) : (slice s lo hi)[k]? = s[lo + k]? := by
  simp [slice, h, List.getElem?_drop]

/-- A row whose pixels are all there is one byte longer than they are. -/
theorem packRow_length {pixels : List Byte} {bw h i : Nat} (hl : h * bw ≤ pixels.length) (hi : i < h) :
    (packRow pixels bw i).length = bw + 1 := by
  have hm : (i + 1) * bw ≤ h * bw := Nat.mul_le_mul_right _ hi
  have he : (i + 1) * bw = i * bw + bw := by ring
  simp [packRow, slice]
  omega

/-- One row more. -/
theorem pack_succ (pixels : List Byte) (w h d : Nat) :
    pack pixels w (h + 1) d = pack pixels w h d ++ packRow pixels (byteWidth w d) h := by
  simp [pack, List.range_succ]

end Sys2Proof.Machine
end

