-- ==== Sys2Proof/Tests/Slice0.lean ====
section
/-! SUPPORT. Tests against numbers the spec gives (each names its vector of spec/95_test_vectors.md), the smoke test of
WellFormed, and one witness per statement that has hypotheses: a concrete state and operands that meet all of them. -/

namespace Sys2Proof.Tests

open Sys2Proof.Machine

/-! ## WellFormed: each check refuses an ill-formed term -/

theorem test_wellFormed_accepts : (Instr.pack 1 1 1).isWellFormed = true ∧ (Instr.crc32 0 0).isWellFormed = true ∧
    (Instr.frame 0 0).isWellFormed = true ∧ (Instr.pack 0xFFFFFFFF 0xFFFFFFFF 16).isWellFormed = true := by decide

theorem test_wellFormed_depth : ¬ (Instr.pack 1 1 0).WellFormed ∧ ¬ (Instr.pack 1 1 3).WellFormed ∧
    ¬ (Instr.pack 1 1 32).WellFormed ∧ (Instr.pack 1 1 3).isWellFormed = false := by decide

theorem test_wellFormed_width : ¬ (Instr.pack 0 1 8).WellFormed ∧ (Instr.pack 0 1 8).isWellFormed = false := by decide

theorem test_wellFormed_height : ¬ (Instr.pack 1 0 8).WellFormed ∧ (Instr.pack 1 0 8).isWellFormed = false := by decide

/-! ## Decode: words written out from section 4 of spec/30_encoding.md, W2 then W1 then W0 -/

/-- K5's command, and X15. -/
theorem test_decode_crc32 : decode 0x000000040000000000000001 = .ok (.crc32 0 4) ∧
    decode 0xFFFFFFFFFFFFFFFF00000001 = .ok (.crc32 0xFFFFFFFF 0xFFFFFFFF) := ⟨rfl, rfl⟩

/-- P2's second command, and X16. -/
theorem test_decode_frame : decode 0x00000003504C544500000002 = .ok (.frame tagPLTE 3) ∧
    decode 0x000000000000000000000002 = .ok (.frame 0 0) := ⟨rfl, rfl⟩

/-- The example of section 4 of 30_encoding, X14 and X17. -/
theorem test_decode_pack : decode 0x000000020000000200000803 = .ok (.pack 2 2 8) ∧
    decode 0xFFFFFFFFFFFFFFFF00001003 = .ok (.pack 0xFFFFFFFF 0xFFFFFFFF 16) ∧
    decode 0x000000010000000100000103 = .ok (.pack 1 1 1) := ⟨rfl, rfl, rfl⟩

/-- X1 to X8: what the decoder refuses, by name. -/
theorem test_decode_refuses : decode 0 = .error .illegalOp ∧ decode 4 = .error .illegalOp ∧
    decode 0xFF0000FF = .error .illegalOp ∧ decode 0x01000001 = .error .reservedNonzero ∧
    decode 0x00000801 = .error .reservedNonzero ∧ decode 0x00010002 = .error .reservedNonzero ∧
    decode 0x01000303 = .error .reservedNonzero ∧ decode 0x00010303 = .error .badFilter :=
  ⟨rfl, rfl, rfl, rfl, rfl, rfl, rfl, rfl⟩

/-- X9 to X13 and X17: the operand checks, by the procedure of R52. -/
theorem test_operand_checks : refusalCode 0x00000303 = some .badDepth ∧
    refusalCode 0x000000010000000100000003 = some .badDepth ∧
    refusalCode 0x000000010000000100002003 = some .badDepth ∧
    refusalCode 0x000000010000000000000803 = some .badGeometry ∧
    refusalCode 0x000000000000000100000803 = some .badGeometry ∧
    refusalCode 0x000000010000000100000103 = none := ⟨rfl, rfl, rfl, rfl, rfl, rfl⟩

/-- The three rows of the opcode table, operand words of zeros. -/
theorem test_table_words : decodeTableWord 96 1 = some (.crc32 0 0) ∧ decodeTableWord 96 2 = some (.frame 0 0) ∧
    decodeTableWord 96 3 = some (.pack 0 0 0) ∧ decodeTableWord 96 4 = none := ⟨rfl, rfl, rfl, rfl⟩

/-! ## The functions -/

/-- Section 2.1 of 95: spot values of the table. -/
theorem test_table_values : crcTable 0 = 0 ∧ crcTable 1 = 0x77073096 ∧ crcTable 8 = 0x0EDB8832 ∧
    crcTable 128 = 0xEDB88320 ∧ crcTable 255 = 0x2D02EF8D := ⟨rfl, rfl, rfl, rfl, rfl⟩

/-- Section 2.1 of 95: single updates. -/
theorem test_upd : upd 0xFFFFFFFF 0x00 = 0x2DFD1072 ∧ upd 0x12345678 0xAB = 0x1FC8B738 ∧
    upd 0xFFFFFFFF 0x61 = 0x174841BC := ⟨rfl, rfl, rfl⟩

/-- K5, K8, and K15, which continues K14. -/
theorem test_crc32_vectors : crc32 0 [0x49, 0x45, 0x4E, 0x44] = 0xAE426082 ∧
    crc32 0 [0x31, 0x32, 0x33, 0x34, 0x35, 0x36, 0x37, 0x38, 0x39] = 0xCBF43926 ∧
    crc32 0x9BE3E0A3 [0x35, 0x36, 0x37, 0x38, 0x39] = 0xCBF43926 := by decide +kernel

/-- F2. -/
theorem test_frame_vector : frame tagPLTE [0, 0, 0] =
    [0x00, 0x00, 0x00, 0x03, 0x50, 0x4C, 0x54, 0x45, 0x00, 0x00, 0x00, 0xA7, 0x7A, 0x3D, 0xDA] := by decide +kernel

/-- S4 and S5. -/
theorem test_pack_vectors : pack [0xFF, 0x80, 0x00, 0x80] 9 2 1 = [0x00, 0xFF, 0x80, 0x00, 0x00, 0x80] ∧
    pack [0xAB, 0xC0, 0xDE, 0xF0] 3 2 4 = [0x00, 0xAB, 0xC0, 0x00, 0xDE, 0xF0] := ⟨rfl, rfl⟩

/-- Section 2.4 of 95: the two largest geometries. -/
theorem test_geometry : byteWidth 0xFFFFFFFF 16 = 8589934590 ∧
    rowStride 0xFFFFFFFF 16 * 0xFFFFFFFF = 36893488134534201345 := by decide

/-- E6 and P3: the file of a 2 by 2 image with 17 compressed bytes has 89 bytes. -/
theorem test_file_length : (pngFile ⟨2, 2, .eight, .greyscale, by decide, by decide⟩ (List.replicate 17 0)).length = 89 := by
  decide

/-- R53: the text form. -/
theorem test_text : (Instr.pack 2 2 8).toText = "PACK 2, 2, 8" := by decide

/-! ## One step -/

/-- A machine with the block given, no offer, nothing scheduled. -/
def machine (blk : Block) : State := { State.reset with block := blk }

/-- The reset machine with the descriptor given on offer. -/
def offering (d : Descriptor) : State := { State.reset with offer := some d }

/-- A block running the command given, just accepted but for `acc`. -/
def running (op : Byte) (a b : Word) (depth : Byte) : Block :=
  { Block.reset with st := .busy, op := op, a := a, b := b, depth := depth }

/-- A block in FAULT after X9. -/
def faulted : Block := { Block.reset with st := .fault, cause := 4 }

/-- The next state, if there is one. -/
def after (o : Host.Outcome State Fault Refusal) : Option State :=
  match o with
  | .next t => some t
  | .fault _ => none
  | .refused _ => none

/-- K5's trace, first byte. -/
theorem test_crc32_byte :
    (after (step (machine { running 1 0 4 0 with acc := 0xFFFFFFFF, inQ := [0x49, 0x45] }))).map
      (fun t => (t.block.acc, t.block.n, t.block.inQ)) = some (0x22FDE946, 1, [0x45]) := by decide

/-- K5's trace, done. -/
theorem test_crc32_done :
    (after (step (machine { running 1 0 4 0 with acc := 0x51BD9F7D, n := 4 }))).map
      (fun t => (t.block.result, t.block.rv, t.block.st)) = some (0xAE426082, true, .idle) := by decide

/-- F8's length field has a byte that is not 0 at offset 2. -/
theorem test_frame_length_byte :
    (after (step (machine { running 2 0xFFFFFFFF 0x100 0 with n := 2, outQ := [0, 0] }))).map
      (fun t => (t.block.outQ, t.block.n)) = some ([0, 0, 1], 3) := by decide

/-- F1: the first CRC byte, from `acc` as in K5's trace. -/
theorem test_frame_crc_byte :
    (after (step (machine { running 2 0x49454E44 0 0 with acc := 0x51BD9F7D, n := 8 }))).map
      (fun t => (t.block.outQ, t.block.n, t.block.acc)) = some ([0xAE], 9, 0x51BD9F7D) := by decide

/-- S1: the filter byte needs no input. -/
theorem test_pack_filter_byte :
    (after (step (machine (running 3 2 2 8)))).map (fun t => (t.block.outQ, t.block.col)) = some ([0], 1) := by decide

/-- S1: the last byte of a row begins the next row. -/
theorem test_pack_last_byte :
    (after (step (machine { running 3 2 2 8 with col := 2, inQ := [0x20, 0x30] }))).map
      (fun t => (t.block.outQ, t.block.row, t.block.col, t.block.inQ)) = some ([0x20], 1, 0, [0x30]) := by decide

/-- X9 from reset: STATUS reads 0x00000042. -/
theorem test_fault_status :
    (after (step (offering 0x00000303))).map (fun t => (statusWord t.block, t.offer)) = some (0x42, none) := by decide

/-- The next step after `withFetchWord` runs the instruction placed: P1's first descriptor, from reset and from FAULT. -/
theorem test_fetch_word :
    (after (step (State.reset.withFetchWord 96 0x000000040000000000000001))).map
      (fun t => (t.block.st, t.block.acc, t.block.b, t.offer)) = some (.busy, 0xFFFFFFFF, 4, none) ∧
    (after (step ((machine faulted).withFetchWord 96 0x000000040000000000000001))).map
      (fun t => (t.block.st, t.block.b)) = some (.busy, 4) := by decide

/-- P4: a scheduled reset leaves FAULT, empties `in_q` and withdraws the offer. -/
theorem test_reset_event :
    (after (step { offering 0x000000000000000000000002 with
      block := { faulted with inQ := [1, 2, 3, 4] }, schedule := [.host .reset] })).map
      (fun t => (t.block.st, t.block.inQ, t.offer)) = some (.idle, [], none) := rfl

/-- What a step adds to the record of accepts: a valid descriptor, not a refused one (P4's `PACK`). -/
theorem test_record_of_accepts : recordAccept (offering 0x000000000000000700000001) [] = [0x000000000000000700000001] ∧
    recordAccept (offering 0x000000020000000200000303) [2] = [2] := ⟨rfl, rfl⟩

/-- What a reset takes off the record: the `FRAME` it abandons, not the `CRC32` before it; a `FRAME "IEND", 0` of which a
byte is still in `out_q`, not one that is taken whole, nor a `FRAME` before a later one's queued bytes. -/
theorem test_record_of_resets : recordReset (running 2 0 0 0) [1, 2] = [1] ∧ recordReset faulted [1, 2] = [1, 2] ∧
    recordReset { Block.reset with outQ := [0x82] } [2, 1] = [1] ∧
    recordReset { Block.reset with outQ := [0x60, 0x82] } [2, 2] = [2] := ⟨rfl, rfl, rfl, rfl⟩

/-- `CRC32 7, 0` (K2's case) is a run of two block steps that is over, though a read is still scheduled. -/
theorem test_run_over :
    RunOver [0x000000000000000700000001]
      { offering 0x000000000000000700000001 with schedule := [.block, .block, .host .readResult] } 2 :=
  ⟨rfl, _, rfl, rfl, rfl, rfl⟩

/-- A refused descriptor was not accepted: that run is not over, also after a reset (P4's end). -/
theorem test_run_not_over :
    ¬ RunOver [0x000000020000000200000303]
      { offering 0x000000020000000200000303 with schedule := [.block, .host .reset] } 2 :=
  fun h => absurd h.1 (by decide)

/-- R140: a `FRAME` short of its one payload byte is stuck, with a take and a STATUS read still scheduled. -/
theorem test_stuck : Stuck { machine { running 2 tagIDAT 1 0 with n := 8 } with
    schedule := [.host .take, .block, .host .readStatus] } :=
  stuck_of_waitsOnIn ⟨rfl, rfl, by decide⟩ (by decide)

/-! ## Witnesses: for each statement with hypotheses, a state and operands that meet all of them, clause by clause -/

/-- One command of each kind; `PACK` also with operands that checks 5 and 6 refuse. -/
theorem witness_EncodeDecodeRoundTrip : decode 0x000000040000000000000001 = .ok (.crc32 0 4) ∧
    decode 0x0000000349454E4400000002 = .ok (.frame tagIEND 3) ∧
    decode 0x000000030000000200000803 = .ok (.pack 2 3 8) ∧
    decode 0x000000000000000000000303 = .ok (.pack 0 0 3) := ⟨rfl, rfl, rfl, rfl⟩

/-- No reset is next when nothing is scheduled. -/
theorem noReset {s : State} (h : s.schedule = []) : ¬ ResetNext s := by
  rintro ⟨rest, hr⟩
  rw [h] at hr
  cases hr

/-- Nor when another move of the host is. -/
theorem noResetHost {s : State} {m : HostMove} {rest : List Turn} (h : s.schedule = .host m :: rest)
    (hm : m ≠ .reset) : ¬ ResetNext s := by
  rintro ⟨r, hr⟩
  rw [h] at hr
  cases hr
  exact hm rfl

/-- A machine that is to move in each of the three ways: nothing scheduled, a block turn, a host move that is not enabled. -/
theorem threeWays (s : State) (hs : s.schedule = []) (hq : s.block.outQ = []) :
    s.schedule = [] ∧ { s with schedule := [.block] }.schedule = .block :: [] ∧
      { s with schedule := [.host .take] }.schedule = .host .take :: [] ∧
      hostEnabled .take { s with schedule := [.host .take] } = false :=
  ⟨hs, rfl, rfl, by simp [hostEnabled, hq]⟩

/-- Each of the five codes, in each of the three ways the block comes to move. -/
theorem witness_RefusedDescriptorTakesFault :
    (∀ p ∈ [((0 : Descriptor), FaultCode.illegalOp), (0x01000001, .reservedNonzero), (0x00010303, .badFilter),
        (0x00000303, .badDepth), (0x000000000000000100000803, .badGeometry)],
      refusalCode p.1 = some p.2) ∧
    ∀ d : Descriptor, ∀ turns, { offering d with schedule := turns }.block.st = .idle ∧
      { offering d with schedule := turns }.offer = some d ∧
      ((offering d).schedule = [] ∧ { offering d with schedule := [.block] }.schedule = .block :: [] ∧
        { offering d with schedule := [.host .take] }.schedule = .host .take :: [] ∧
        hostEnabled .take { offering d with schedule := [.host .take] } = false) :=
  ⟨by decide, fun d _ => ⟨rfl, rfl, threeWays (offering d) rfl rfl⟩⟩

/-- The smallest and the largest valid descriptor of each command, in each of the three ways the block comes to move; then
an offer to a BUSY block and one to a block in FAULT. -/
theorem witness_ValidDescriptorIsAccepted :
    (∀ d : Descriptor, ∀ turns, { offering d with schedule := turns }.block.st = .idle ∧
      { offering d with schedule := turns }.offer = some d ∧
      ((offering d).schedule = [] ∧ { offering d with schedule := [.block] }.schedule = .block :: [] ∧
        { offering d with schedule := [.host .take] }.schedule = .host .take :: [] ∧
        hostEnabled .take { offering d with schedule := [.host .take] } = false)) ∧
    (refusalCode 0x000000000000000000000001 = none ∧ refusalCode 0xFFFFFFFFFFFFFFFF00000001 = none ∧
      refusalCode 0x000000000000000000000002 = none ∧ refusalCode 0xFFFFFFFFFFFFFFFF00000002 = none ∧
      refusalCode 0x000000010000000100000103 = none ∧ refusalCode 0xFFFFFFFFFFFFFFFF00001003 = none) ∧
    (∃ s t : State, s = { offering 1 with block := running 3 2 2 8 } ∧ s.offer = some 1 ∧
      s.block.st ≠ .idle ∧ step s = .next t ∧ ¬ ResetNext s) ∧
    (∃ s t : State, s = { offering 1 with block := faulted, schedule := [.host .readStatus] } ∧ s.offer = some 1 ∧
      s.block.st ≠ .idle ∧ step s = .next t ∧ ¬ ResetNext s) :=
  ⟨fun d _ => ⟨rfl, rfl, threeWays (offering d) rfl rfl⟩, ⟨rfl, rfl, rfl, rfl, rfl, rfl⟩,
    ⟨_, _, rfl, rfl, by decide, rfl, noReset rfl⟩, ⟨_, _, rfl, rfl, by decide, rfl, noResetHost rfl (by decide)⟩⟩

/-- An IDLE block with an offer and a BUSY one, each under the three kinds of schedule. -/
theorem witness_StepRunsDecodedInstr :
    ((offering 3).block.st = .idle ∧ (offering 3).offer = some 3 ∧ decode 3 = .ok (.pack 0 0 0)) ∧
    ((machine (running 3 2 2 8)).block.st = .busy ∧ runningInstr (machine (running 3 2 2 8)).block = some (.pack 2 2 8)) ∧
    (offering 3).schedule = [] ∧ { offering 3 with schedule := [.block] }.schedule = .block :: [] ∧
    { offering 3 with schedule := [.host .take] }.schedule = .host .take :: [] ∧
    hostEnabled .take { offering 3 with schedule := [.host .take] } = false := ⟨⟨rfl, rfl, rfl⟩, ⟨rfl, rfl⟩, rfl, rfl, rfl, rfl⟩

theorem witness_Crc32AcceptWrites : (machine Block.reset).block.st = .idle := rfl

theorem witness_FrameAcceptWrites : (machine Block.reset).block.st = .idle := rfl

theorem witness_PackAcceptWrites : (machine Block.reset).block.st = .idle ∧ (Instr.pack 1 1 1).WellFormed ∧
    (Instr.pack 0xFFFFFFFF 0xFFFFFFFF 16).WellFormed := by decide

/-- Both clauses, the values next to the legal depths among them. -/
theorem witness_PackIllegalOperandsFault : (machine Block.reset).block.st = .idle ∧
    (∀ d ∈ [(0 : Byte), 3, 5, 7, 9, 15, 17, 255], d ∉ legalDepths) ∧
    ((1 : Byte) ∈ legalDepths ∧ ((0 : Word) = 0 ∨ (1 : Word) = 0)) ∧
    ((16 : Byte) ∈ legalDepths ∧ ((0xFFFFFFFF : Word) = 0 ∨ (0 : Word) = 0)) := by decide

/-- The first byte of four, and the last of the longest range. -/
theorem witness_CrcByteStep :
    (∃ k : Block, k = { running 1 0 4 0 with inQ := [0x49] } ∧
      k.st = .busy ∧ k.op = 0x01 ∧ k.n < k.b.toNat ∧ k.inQ = 0x49 :: []) ∧
    (∃ k : Block, k = { running 1 0 0xFFFFFFFF 0 with n := 0xFFFFFFFE, inQ := [0] } ∧
      k.st = .busy ∧ k.op = 0x01 ∧ k.n < k.b.toNat ∧ k.inQ = 0 :: []) :=
  ⟨⟨_, rfl, by decide⟩, ⟨_, rfl, by decide⟩⟩

/-- Of the empty range, and of the longest. -/
theorem witness_CrcDoneStep :
    (∃ k : Block, k = running 1 7 0 0 ∧ k.st = .busy ∧ k.op = 0x01 ∧ k.n = k.b.toNat) ∧
    (∃ k : Block, k = { running 1 0 0xFFFFFFFF 0 with n := 0xFFFFFFFF } ∧
      k.st = .busy ∧ k.op = 0x01 ∧ k.n = k.b.toNat) :=
  ⟨⟨_, rfl, by decide⟩, ⟨_, rfl, by decide⟩⟩

/-- A machine whose OUT holds one byte at most. -/
def narrow (blk : Block) : State := { machine blk with outDepth := .slots 0 }

/-- The first and the last length byte, the second into an OUT of capacity 1. -/
theorem witness_FrameLengthByteStep :
    (∃ s : State, s = machine (running 2 5 0 0) ∧ s.block.st = .busy ∧ s.block.op = 0x02 ∧ s.block.n < 4 ∧
      Fits s.outDepth (s.block.outQ.length + 1)) ∧
    (∃ s : State, s = narrow { running 2 5 0xFFFFFFFF 0 with n := 3 } ∧ s.block.st = .busy ∧ s.block.op = 0x02 ∧
      s.block.n < 4 ∧ Fits s.outDepth (s.block.outQ.length + 1)) :=
  ⟨⟨_, rfl, rfl, rfl, by decide, trivial⟩, ⟨_, rfl, rfl, rfl, by decide, Nat.le_refl 1⟩⟩

/-- The first and the last tag byte. -/
theorem witness_FrameTypeByteStep :
    (∃ s : State, s = machine { running 2 5 0 0 with n := 4 } ∧ s.block.st = .busy ∧ s.block.op = 0x02 ∧
      4 ≤ s.block.n ∧ s.block.n < 8 ∧ Fits s.outDepth (s.block.outQ.length + 1)) ∧
    (∃ s : State, s = narrow { running 2 5 9 0 with n := 7 } ∧ s.block.st = .busy ∧ s.block.op = 0x02 ∧
      4 ≤ s.block.n ∧ s.block.n < 8 ∧ Fits s.outDepth (s.block.outQ.length + 1)) :=
  ⟨⟨_, rfl, rfl, rfl, by decide, by decide, trivial⟩, ⟨_, rfl, rfl, rfl, by decide, by decide, Nat.le_refl 1⟩⟩

/-- The only payload byte of one, and the last of the longest payload. -/
theorem witness_FramePayloadByteStep :
    (∃ s : State, s = machine { running 2 5 1 0 with n := 8, inQ := [0xFF] } ∧ s.block.st = .busy ∧ s.block.op = 0x02 ∧
      8 ≤ s.block.n ∧ s.block.n < 8 + s.block.b.toNat ∧ s.block.inQ = 0xFF :: [] ∧
      Fits s.outDepth (s.block.outQ.length + 1)) ∧
    (∃ s : State, s = narrow { running 2 5 0xFFFFFFFF 0 with n := 4294967302, inQ := [1, 2] } ∧ s.block.st = .busy ∧
      s.block.op = 0x02 ∧ 8 ≤ s.block.n ∧ s.block.n < 8 + s.block.b.toNat ∧ s.block.inQ = 1 :: [2] ∧
      Fits s.outDepth (s.block.outQ.length + 1)) :=
  ⟨⟨_, rfl, rfl, rfl, by decide, by decide, rfl, trivial⟩,
    ⟨_, rfl, rfl, rfl, by decide, by decide, rfl, Nat.le_refl 1⟩⟩

/-- The first CRC byte of an empty payload, and the last of the longest. -/
theorem witness_FrameCrcByteStep :
    (∃ s : State, s = machine { running 2 5 0 0 with n := 8 } ∧ s.block.st = .busy ∧ s.block.op = 0x02 ∧
      8 + s.block.b.toNat ≤ s.block.n ∧ s.block.n < 12 + s.block.b.toNat ∧
      Fits s.outDepth (s.block.outQ.length + 1)) ∧
    (∃ s : State, s = narrow { running 2 5 0xFFFFFFFF 0 with n := 4294967306 } ∧ s.block.st = .busy ∧
      s.block.op = 0x02 ∧ 8 + s.block.b.toNat ≤ s.block.n ∧ s.block.n < 12 + s.block.b.toNat ∧
      Fits s.outDepth (s.block.outQ.length + 1)) :=
  ⟨⟨_, rfl, rfl, rfl, by decide, by decide, trivial⟩, ⟨_, rfl, rfl, rfl, by decide, by decide, Nat.le_refl 1⟩⟩

theorem witness_FrameDoneStep :
    ∃ k : Block, k = { running 2 5 0xFFFFFFFF 0 with n := 4294967307 } ∧ k.st = .busy ∧ k.op = 0x02 ∧
      k.n = 12 + k.b.toNat := ⟨_, rfl, by decide⟩

/-- The first row of one, and the last of the tallest image. -/
theorem witness_PackFilterByteStep :
    (∃ s : State, s = narrow (running 3 1 1 1) ∧ s.block.st = .busy ∧ s.block.op = 0x03 ∧
      s.block.row < s.block.b.toNat ∧ s.block.col = 0 ∧ Fits s.outDepth (s.block.outQ.length + 1)) ∧
    (∃ s : State, s = machine { running 3 1 0xFFFFFFFF 1 with row := 0xFFFFFFFE } ∧ s.block.st = .busy ∧
      s.block.op = 0x03 ∧ s.block.row < s.block.b.toNat ∧ s.block.col = 0 ∧
      Fits s.outDepth (s.block.outQ.length + 1)) :=
  ⟨⟨_, rfl, rfl, rfl, by decide, rfl, Nat.le_refl 1⟩, ⟨_, rfl, rfl, rfl, by decide, rfl, trivial⟩⟩

/-- Inside a row, and the last byte of the widest row. -/
theorem witness_PackDataByteStep :
    (∃ s : State, s = narrow { running 3 2 2 8 with col := 1, inQ := [0x10] } ∧ s.block.st = .busy ∧
      s.block.op = 0x03 ∧ s.block.row < s.block.b.toNat ∧ 1 ≤ s.block.col ∧
      s.block.col ≤ byteWidth s.block.a.toNat s.block.depth.toNat ∧ s.block.inQ = 0x10 :: [] ∧
      Fits s.outDepth (s.block.outQ.length + 1)) ∧
    (∃ s : State, s = machine { running 3 0xFFFFFFFF 1 16 with col := 8589934590, inQ := [0x10] } ∧
      s.block.st = .busy ∧ s.block.op = 0x03 ∧ s.block.row < s.block.b.toNat ∧ 1 ≤ s.block.col ∧
      s.block.col ≤ byteWidth s.block.a.toNat s.block.depth.toNat ∧ s.block.inQ = 0x10 :: [] ∧
      Fits s.outDepth (s.block.outQ.length + 1)) :=
  ⟨⟨_, rfl, rfl, rfl, by decide, by decide, by decide, rfl, Nat.le_refl 1⟩,
    ⟨_, rfl, rfl, rfl, by decide, by decide, by decide, rfl, trivial⟩⟩

theorem witness_PackDoneStep :
    ∃ k : Block, k = { running 3 1 0xFFFFFFFF 1 with row := 0xFFFFFFFF } ∧ k.st = .busy ∧ k.op = 0x03 ∧
      k.row = k.b.toNat := ⟨_, rfl, by decide⟩

/-- An IDLE block with no offer, and the five ways of waiting of a BUSY one, the first two in each of the three ways the
block comes to move. -/
theorem witness_StarvedCommandWaits :
    (State.reset.block.st = .idle ∧ State.reset.offer = none ∧
      (State.reset.schedule = [] ∧ { State.reset with schedule := [.block] }.schedule = .block :: [] ∧
        { State.reset with schedule := [.host .take] }.schedule = .host .take :: [] ∧
        hostEnabled .take { State.reset with schedule := [.host .take] } = false)) ∧
    (∃ s : State, s = machine { running 1 0 4 0 with n := 3 } ∧
      (s.schedule = [] ∧ { s with schedule := [.block] }.schedule = .block :: [] ∧
        { s with schedule := [.host .take] }.schedule = .host .take :: [] ∧
        hostEnabled .take { s with schedule := [.host .take] } = false)) ∧
    (∃ s : State, s = machine { running 1 0 4 0 with n := 3 } ∧ s.schedule = [] ∧ s.block.st = .busy ∧
      (s.block.op = 0x01 ∧ s.block.n < s.block.b.toNat ∧ s.block.inQ = [])) ∧
    (∃ s : State, s = machine { running 2 0 1 0 with n := 8 } ∧ s.schedule = [] ∧ s.block.st = .busy ∧
      (s.block.op = 0x02 ∧ 8 ≤ s.block.n ∧ s.block.n < 8 + s.block.b.toNat ∧ s.block.inQ = [])) ∧
    (∃ s : State, s = narrow { running 2 0 0 0 with n := 11, outQ := [0] } ∧ s.schedule = [] ∧ s.block.st = .busy ∧
      (s.block.op = 0x02 ∧ s.block.n < 12 + s.block.b.toNat ∧ ¬ Fits s.outDepth (s.block.outQ.length + 1))) ∧
    (∃ s : State, s = machine { running 3 9 1 1 with col := 2 } ∧ s.schedule = [] ∧ s.block.st = .busy ∧
      (s.block.op = 0x03 ∧ s.block.row < s.block.b.toNat ∧ 1 ≤ s.block.col ∧
        s.block.col ≤ byteWidth s.block.a.toNat s.block.depth.toNat ∧ s.block.inQ = [])) ∧
    (∃ s : State, s = narrow { running 3 9 1 1 with outQ := [0] } ∧ s.schedule = [] ∧ s.block.st = .busy ∧
      (s.block.op = 0x03 ∧ s.block.row < s.block.b.toNat ∧
        s.block.col ≤ byteWidth s.block.a.toNat s.block.depth.toNat ∧
        ¬ Fits s.outDepth (s.block.outQ.length + 1))) :=
  ⟨⟨rfl, rfl, threeWays _ rfl rfl⟩, ⟨_, rfl, threeWays _ rfl rfl⟩,
    ⟨_, rfl, rfl, rfl, by decide⟩, ⟨_, rfl, rfl, rfl, by decide⟩,
    ⟨_, rfl, rfl, rfl, rfl, by decide, fun h => absurd h (by decide : ¬ 2 ≤ 0 + 1)⟩, ⟨_, rfl, rfl, rfl, by decide⟩,
    ⟨_, rfl, rfl, rfl, rfl, by decide, by decide, fun h => absurd h (by decide : ¬ 2 ≤ 0 + 1)⟩⟩

/-- `s` with the descriptor of `i` on offer and `input` on IN. -/
def ready (i : Instr) (input : List Byte) : State :=
  { machine { Block.reset with inQ := input } with offer := some (encode i) }

/-- An empty range, with IN and OUT empty (the last clause); and one with a byte to spare. -/
theorem witness_Crc32CommandComputesCrc :
    (∃ s : State, s = ready (.crc32 7 0) [] ∧ s.schedule = [] ∧ s.block.st = .idle ∧
      s.offer = some (encode (.crc32 7 0)) ∧ (0 : Word).toNat ≤ s.block.inQ.length ∧
      s.block.inQ.length = (0 : Word).toNat ∧ s.block.outQ = []) ∧
    (∃ s : State, s = ready (.crc32 0 2) [1, 2, 3] ∧ s.schedule = [] ∧ s.block.st = .idle ∧
      s.offer = some (encode (.crc32 0 2)) ∧ (2 : Word).toNat ≤ s.block.inQ.length) :=
  ⟨⟨_, rfl, rfl, rfl, rfl, by decide, rfl, rfl⟩, ⟨_, rfl, rfl, rfl, rfl, by decide⟩⟩

/-- F1 into an OUT of exactly 12 bytes, and F5. -/
theorem witness_FrameCommandEmitsChunk :
    (∃ s : State, s = { ready (.frame tagIEND 0) [] with outDepth := .slots 11 } ∧ s.schedule = [] ∧
      s.block.st = .idle ∧ s.offer = some (encode (.frame tagIEND 0)) ∧ (0 : Word).toNat ≤ s.block.inQ.length ∧
      Fits s.outDepth (s.block.outQ.length + ((0 : Word).toNat + 12))) ∧
    (∃ s : State, s = ready (.frame 0 1) [0xFF] ∧ s.schedule = [] ∧ s.block.st = .idle ∧
      s.offer = some (encode (.frame 0 1)) ∧ (1 : Word).toNat ≤ s.block.inQ.length ∧
      Fits s.outDepth (s.block.outQ.length + ((1 : Word).toNat + 12))) :=
  ⟨⟨_, rfl, rfl, rfl, rfl, by decide, Nat.le_refl 12⟩, ⟨_, rfl, rfl, rfl, rfl, by decide, trivial⟩⟩

/-- S2 into an OUT of exactly 2 bytes, and S1. -/
theorem witness_PackCommandEmitsRows :
    (∃ s : State, s = { ready (.pack 1 1 1) [0x80] with outDepth := .slots 1 } ∧ s.schedule = [] ∧
      s.block.st = .idle ∧ s.offer = some (encode (.pack 1 1 1)) ∧ (Instr.pack 1 1 1).WellFormed ∧
      byteWidth (1 : Word).toNat (1 : Byte).toNat * (1 : Word).toNat ≤ s.block.inQ.length ∧
      Fits s.outDepth (s.block.outQ.length + rowStride (1 : Word).toNat (1 : Byte).toNat * (1 : Word).toNat)) ∧
    (∃ s : State, s = ready (.pack 2 2 8) [0x10, 0x20, 0x30, 0x40] ∧ s.schedule = [] ∧ s.block.st = .idle ∧
      s.offer = some (encode (.pack 2 2 8)) ∧ (Instr.pack 2 2 8).WellFormed ∧
      byteWidth (2 : Word).toNat (8 : Byte).toNat * (2 : Word).toNat ≤ s.block.inQ.length ∧
      Fits s.outDepth (s.block.outQ.length + rowStride (2 : Word).toNat (8 : Byte).toNat * (2 : Word).toNat)) :=
  ⟨⟨_, rfl, rfl, rfl, rfl, by decide, by decide, Nat.le_refl 2⟩, ⟨_, rfl, rfl, rfl, rfl, by decide, by decide, trivial⟩⟩

/-- A `CRC32` of one byte, before its byte and when it is done. -/
theorem witness_CrcProgressKept :
    (∃ s t : State, s = machine { running 1 0 1 0 with acc := 0xFFFFFFFF, inQ := [0x61] } ∧ CrcAt [] s.block ∧
      step s = .next t ∧ ¬ ResetNext s) ∧
    (∃ s t : State, s = machine { running 1 0 1 0 with acc := 0x174841BC, n := 1 } ∧ CrcAt [0x61] s.block ∧
      step s = .next t ∧ ¬ ResetNext s) :=
  ⟨⟨_, _, rfl, ⟨rfl, rfl, rfl, by decide, by decide⟩, rfl, noReset rfl⟩,
    ⟨_, _, rfl, ⟨rfl, rfl, rfl, by decide, by decide⟩, rfl, noReset rfl⟩⟩

/-- A `FRAME` with an empty payload, before its first byte and when it is done (F1). -/
theorem witness_FrameProgressKept :
    (∃ s t : State, s = machine { running 2 tagIEND 0 0 with acc := 0xFFFFFFFF } ∧ FrameAt [] [] s.block ∧
      step s = .next t ∧ ¬ ResetNext s) ∧
    (∃ s t : State, s = machine { running 2 tagIEND 0 0 with acc := 0x51BD9F7D, n := 12 } ∧
      FrameAt [] [0x00, 0x00, 0x00, 0x00, 0x49, 0x45, 0x4E, 0x44, 0xAE, 0x42, 0x60, 0x82] s.block ∧
      step s = .next t ∧ ¬ ResetNext s) :=
  ⟨⟨_, _, rfl, ⟨rfl, rfl, by decide, by decide, by decide, by decide⟩, rfl, noReset rfl⟩,
    ⟨_, _, rfl, ⟨rfl, rfl, by decide, by decide, by decide +kernel, by decide +kernel⟩, rfl, noReset rfl⟩⟩

/-- S2, before its first byte and when it is done. -/
theorem witness_PackProgressKept :
    (∃ s t : State, s = machine (running 3 1 1 1) ∧ PackAt [] [] s.block ∧ step s = .next t ∧ ¬ ResetNext s) ∧
    (∃ s t : State, s = machine { running 3 1 1 1 with row := 1 } ∧ PackAt [0x80] [0x00, 0x80] s.block ∧
      step s = .next t ∧ ¬ ResetNext s) :=
  ⟨⟨_, _, rfl, ⟨rfl, ⟨rfl, rfl, by decide, by decide, by decide, by decide⟩, by decide, by decide⟩, rfl, noReset rfl⟩,
    ⟨_, _, rfl, ⟨rfl, ⟨rfl, rfl, by decide, by decide, by decide, by decide⟩, by decide, by decide⟩, rfl, noReset rfl⟩⟩

/-- The empty payload, and the longest. -/
theorem witness_FramedChunkLayout : ([] : List Byte).length < 2 ^ 32 ∧
    (List.replicate (2 ^ 32 - 1) (0 : Byte)).length < 2 ^ 32 :=
  ⟨by decide, by rw [List.length_replicate]; decide⟩

/-- S6, its last row and last byte. -/
theorem witness_PackedRowsLayout : 3 * byteWidth 5 2 ≤ [(0x1B : Byte), 0x40, 0xE4, 0x80, 0xFF, 0xC0].length ∧ 2 < 3 ∧
    1 < byteWidth 5 2 := by decide

theorem witness_PackIsInvertible : 3 * byteWidth 5 2 ≤ [(0x1B : Byte), 0x40, 0xE4, 0x80, 0xFF, 0xC0].length := by decide

theorem witness_PackIgnoresSurplusPixels : 1 * byteWidth 1 1 ≤ [(0x80 : Byte)].length := by decide

/-- The smallest and the largest image, and each depth. -/
theorem witness_ByteWidthBounds : (Instr.pack 1 1 1).WellFormed ∧ (Instr.pack 0xFFFFFFFF 0xFFFFFFFF 16).WellFormed ∧
    ∀ d ∈ legalDepths, (Instr.pack 9 2 d).WellFormed := by decide

/-- A block in FAULT meets the invariant. -/
theorem faulted_inv : Inv (machine faulted) :=
  ⟨fun h => absurd rfl h, fun _ => ⟨.badDepth, rfl⟩, fun h => (nomatch h), trivial, trivial⟩

/-- A running `CRC32` at its bound meets the invariant. -/
theorem crc32_inv : Inv (machine { running 1 0 0xFFFFFFFF 0 with n := 0xFFFFFFFF }) :=
  ⟨fun _ => rfl, fun h => (nomatch h), fun _ => .inl ⟨rfl, rfl, rfl, rfl, by decide⟩, trivial, trivial⟩

/-- A running `FRAME` at its bound meets the invariant. -/
theorem frame_inv : Inv (machine { running 2 0 0xFFFFFFFF 0 with n := 4294967307 }) :=
  ⟨fun _ => rfl, fun h => (nomatch h), fun _ => .inr (.inl ⟨rfl, rfl, rfl, by decide⟩), trivial, trivial⟩

/-- A running `PACK` of the widest image, in its last row and at its last column, meets the invariant, with an OUT of
capacity 1 that is full. -/
theorem pack_inv :
    Inv (narrow { running 3 0xFFFFFFFF 0xFFFFFFFF 16 with row := 0xFFFFFFFE, col := 8589934590, outQ := [0] }) :=
  ⟨fun _ => rfl, fun h => (nomatch h), fun _ => .inr (.inr ⟨rfl, rfl, by decide, by decide, by decide, by decide⟩),
    trivial, Nat.le_refl 1⟩

/-- From FAULT and from the bound of each command. -/
theorem witness_GoodStateKeptByStep :
    (∃ s t : State, Inv s ∧ s = machine faulted ∧ step s = .next t) ∧
    (∃ s t : State, Inv s ∧ s.block.op = opCrc32 ∧ step s = .next t) ∧
    (∃ s t : State, Inv s ∧ s.block.op = opFrame ∧ step s = .next t) ∧
    (∃ s t : State, Inv s ∧ s.block.op = opPack ∧ step s = .next t) :=
  ⟨⟨_, _, faulted_inv, rfl, rfl⟩, ⟨_, _, crc32_inv, rfl, rfl⟩, ⟨_, _, frame_inv, rfl, rfl⟩, ⟨_, _, pack_inv, rfl, rfl⟩⟩

/-- The three bounds, each reached. -/
theorem witness_CountersStayBounded :
    (∃ s, Inv s ∧ s.block.st = .busy ∧ s.block.op = 0x01 ∧ s.block.n = 2 ^ 32 - 1) ∧
    (∃ s, Inv s ∧ s.block.st = .busy ∧ s.block.op = 0x02 ∧ s.block.n = 2 ^ 32 + 11) ∧
    (∃ s, Inv s ∧ s.block.st = .busy ∧ s.block.op = 0x03 ∧ s.block.col = 2 ^ 33 - 2) :=
  ⟨⟨_, crc32_inv, rfl, rfl, rfl⟩, ⟨_, frame_inv, rfl, rfl, rfl⟩, ⟨_, pack_inv, rfl, rfl, rfl⟩⟩

theorem witness_GoodStateAlwaysSteps : Inv (machine faulted) ∧
    Inv (machine { running 1 0 0xFFFFFFFF 0 with n := 0xFFFFFFFF }) := ⟨faulted_inv, crc32_inv⟩

/-- Both clauses: the three ways the block comes to move, and a host's move scheduled that is not a reset. -/
theorem witness_FaultIsSticky : (machine faulted).block.st = .fault ∧
    ((machine faulted).schedule = [] ∧ { machine faulted with schedule := [.block] }.schedule = .block :: [] ∧
      { machine faulted with schedule := [.host .take] }.schedule = .host .take :: [] ∧
      hostEnabled .take { machine faulted with schedule := [.host .take] } = false) ∧
    ∃ s t : State, s = { machine faulted with schedule := [.host (.offer 7)] } ∧ s.block.st = .fault ∧
      step s = .next t ∧ ¬ ResetNext s :=
  ⟨rfl, threeWays _ rfl rfl, _, _, rfl, rfl, rfl, noResetHost rfl (by decide)⟩

theorem witness_RunningCommandCannotFault :
    ∃ s t : State, s = machine (running 3 2 2 8) ∧ s.block.st = .busy ∧ step s = .next t := ⟨_, _, rfl, rfl, rfl⟩

/-- An accept of `CRC32`, and its done step. -/
theorem witness_ResultWrittenOnlyByCrc :
    (∃ s t : State, s = offering 0x000000000000000000000001 ∧ step s = .next t ∧ ¬ ResetNext s) ∧
    (∃ s t : State, s = machine (running 1 7 0 0) ∧ step s = .next t ∧ ¬ ResetNext s) :=
  ⟨⟨_, _, rfl, rfl, noReset rfl⟩, ⟨_, _, rfl, rfl, noReset rfl⟩⟩

/-- No accept: a BUSY block with an offer, an IDLE one without, an IDLE one that refuses, and a host move before an IDLE
block with a valid offer. -/
theorem witness_LatchesHoldUntilNextAccept :
    (∃ s t : State, s = { offering 2 with block := running 3 2 2 8 } ∧ step s = .next t ∧ ¬ ResetNext s ∧
      acceptsNext s = none) ∧
    (∃ s t : State, s = State.reset ∧ step s = .next t ∧ ¬ ResetNext s ∧ acceptsNext s = none) ∧
    (∃ s t : State, s = offering 0 ∧ step s = .next t ∧ ¬ ResetNext s ∧ acceptsNext s = none) ∧
    (∃ s t : State, s = { offering 2 with schedule := [.host .readStatus] } ∧ step s = .next t ∧ ¬ ResetNext s ∧
      acceptsNext s = none) :=
  ⟨⟨_, _, rfl, rfl, noReset rfl, rfl⟩, ⟨_, _, rfl, rfl, noReset rfl, rfl⟩, ⟨_, _, rfl, rfl, noReset rfl, rfl⟩,
    ⟨_, _, rfl, rfl, noResetHost rfl (by decide), rfl⟩⟩

/-- A step that pushes a byte, and one by which the host takes one. -/
theorem witness_OutStreamKeepsOrder :
    (∃ s t : State, s = machine (running 3 2 2 8) ∧ step s = .next t ∧ ¬ ResetNext s) ∧
    (∃ s t : State, s = { machine { Block.reset with outQ := [1, 2] } with schedule := [.host .take] } ∧
      step s = .next t ∧ ¬ ResetNext s) :=
  ⟨⟨_, _, rfl, rfl, noReset rfl⟩, ⟨_, _, rfl, rfl, noResetHost rfl (by decide)⟩⟩

/-- A step that takes a byte from IN, and one by which the host offers one. -/
theorem witness_InStreamKeepsOrder :
    (∃ s t : State, s = machine { running 1 0 1 0 with inQ := [0x61] } ∧ step s = .next t ∧ ¬ ResetNext s) ∧
    (∃ s t : State, s = { State.reset with schedule := [.host (.offer 7)] } ∧ step s = .next t ∧ ¬ ResetNext s ∧
      s.block.st ≠ .busy) :=
  ⟨⟨_, _, rfl, rfl, noReset rfl⟩, ⟨_, _, rfl, rfl, noResetHost rfl (by decide), by decide⟩⟩

/-- An offer accepted, one refused, and one that waits. -/
theorem witness_OfferIsNeverDropped :
    (∃ s t : State, s = offering 1 ∧ s.offer = some 1 ∧ step s = .next t ∧ ¬ ResetNext s) ∧
    (∃ s t : State, s = offering 0 ∧ s.offer = some 0 ∧ step s = .next t ∧ ¬ ResetNext s) ∧
    (∃ s t : State, s = { offering 1 with block := running 3 2 2 8 } ∧ s.offer = some 1 ∧ step s = .next t ∧
      ¬ ResetNext s) :=
  ⟨⟨_, _, rfl, rfl, rfl, noReset rfl⟩, ⟨_, _, rfl, rfl, rfl, noReset rfl⟩, ⟨_, _, rfl, rfl, rfl, noReset rfl⟩⟩

/-- Two IDLE machines that differ in latches, counters, `acc` and a `result` that is not valid. -/
theorem differ_sameForHost :
    SameForHost (offering 1) { offering 1 with
      block := { Block.reset with op := 2, a := 3, n := 4, acc := 5, result := 6 } } := by
  constructor <;> first | rfl | exact fun h => nomatch h

theorem witness_HiddenStateIsNeverSeen : ∃ s₁ s₂ t₁ : State, s₁ ≠ s₂ ∧ SameForHost s₁ s₂ ∧ step s₁ = .next t₁ :=
  ⟨_, _, _, by decide, differ_sameForHost, rfl⟩

theorem witness_ResetEventEffect :
    { machine faulted with schedule := [.host .reset, .block] }.schedule = .host .reset :: [.block] := rfl

theorem witness_ResetForgetsEverything :
    ∃ s t : State, s = { machine faulted with schedule := [.host .reset] } ∧ ResetNext s ∧ step s = .next t :=
  ⟨_, _, rfl, ⟨[], rfl⟩, rfl⟩

/-- The three moves; the byte is offered to an empty IN of capacity 1. -/
theorem witness_HostDataMovesEffect :
    (∃ s : State, s = { State.reset with schedule := [.host (.issue 1)] } ∧
      s.schedule = .host (.issue 1) :: [] ∧ s.offer = none) ∧
    (∃ s : State, s = { State.reset with inDepth := .slots 0, schedule := [.host (.offer 7)] } ∧
      s.schedule = .host (.offer 7) :: [] ∧ Fits s.inDepth (s.block.inQ.length + 1)) ∧
    (∃ s : State, s = { machine { Block.reset with outQ := [1] } with schedule := [.host .take] } ∧
      s.schedule = .host .take :: [] ∧ s.block.outQ = 1 :: []) :=
  ⟨⟨_, rfl, rfl, rfl⟩, ⟨_, rfl, rfl, Nat.le_refl 1⟩, ⟨_, rfl, rfl, rfl⟩⟩

theorem witness_StatusReadEffect :
    { machine faulted with schedule := [.host .readStatus] }.schedule = .host .readStatus :: [] := rfl

/-- With a valid result, and without. -/
theorem witness_ResultReadEffect :
    (∃ s : State, s = { machine { Block.reset with rv := true, result := 9 } with schedule := [.host .readResult] } ∧
      s.schedule = .host .readResult :: [] ∧ s.block.rv = true) ∧
    (∃ s : State, s = { State.reset with schedule := [.host .readResult] } ∧
      s.schedule = .host .readResult :: [] ∧ s.block.rv = false) := ⟨⟨_, rfl, rfl, rfl⟩, ⟨_, rfl, rfl, rfl⟩⟩

/-- Every phase, and in BUSY before the last byte. -/
theorem witness_Crc32LeavesRestUnchanged :
    (∃ s t : State, s = State.reset ∧ exec (.crc32 0 4) s = .next t ∧ s.block.st = .idle) ∧
    (∃ s t : State, s = machine { running 1 0 4 0 with inQ := [1] } ∧ exec (.crc32 0 4) s = .next t ∧
      s.block.st = .busy ∧ s.block.n ≠ s.block.b.toNat) ∧
    (∃ s t : State, s = machine faulted ∧ exec (.crc32 0 4) s = .next t ∧ s.block.st = .fault) :=
  ⟨⟨_, _, rfl, rfl, rfl⟩, ⟨_, _, rfl, rfl, rfl, by decide⟩, ⟨_, _, rfl, rfl, rfl⟩⟩

theorem witness_FrameLeavesRestUnchanged :
    (∃ s t : State, s = State.reset ∧ exec (.frame 0 4) s = .next t ∧ s.block.st = .idle) ∧
    (∃ s t : State, s = machine (running 2 0 4 0) ∧ exec (.frame 0 4) s = .next t ∧ s.block.st = .busy) ∧
    (∃ s t : State, s = machine faulted ∧ exec (.frame 0 4) s = .next t ∧ s.block.st = .fault) :=
  ⟨⟨_, _, rfl, rfl, rfl⟩, ⟨_, _, rfl, rfl, rfl⟩, ⟨_, _, rfl, rfl, rfl⟩⟩

/-- In IDLE with legal operands and with operands that are refused. -/
theorem witness_PackLeavesRestUnchanged :
    (∃ s t : State, s = State.reset ∧ exec (.pack 1 1 1) s = .next t ∧ s.block.st = .idle ∧
      (Instr.pack 1 1 1).WellFormed) ∧
    (∃ s t : State, s = State.reset ∧ exec (.pack 0 0 3) s = .next t ∧ s.block.st = .idle) ∧
    (∃ s t : State, s = machine (running 3 2 2 8) ∧ exec (.pack 2 2 8) s = .next t ∧ s.block.st = .busy) ∧
    (∃ s t : State, s = machine faulted ∧ exec (.pack 2 2 8) s = .next t ∧ s.block.st = .fault) :=
  ⟨⟨_, _, rfl, rfl, rfl, by decide⟩, ⟨_, _, rfl, rfl, rfl⟩, ⟨_, _, rfl, rfl, rfl⟩, ⟨_, _, rfl, rfl, rfl⟩⟩

end Sys2Proof.Tests
end

section
/-! SUPPORT. What a step of the command in progress leaves alone, whichever of the three commands it is
(spec/10_state.md R10, R38; spec/60_exceptions.md R116). -/

namespace Sys2Proof.Machine

/-- The latches hold, `cause` holds, the block stays in BUSY or goes to IDLE, `in_q` only loses bytes, and `out_q` does
not outgrow its capacity. -/
structure RunKeeps (outDepth : Capacity) (blk blk' : Block) : Prop where
  op : blk'.op = blk.op
  a : blk'.a = blk.a
  b : blk'.b = blk.b
  depth : blk'.depth = blk.depth
  filter : blk'.filter = blk.filter
  cause : blk'.cause = blk.cause
  st : blk'.st = blk.st ∨ blk'.st = .idle
  inQ : blk'.inQ <:+ blk.inQ
  outQ : Fits outDepth blk.outQ.length → Fits outDepth blk'.outQ.length

/-- A queue with room fits after one more byte is pushed (R28). -/
theorem fits_push {d : Capacity} {q : List Byte} (x : Byte) (h : hasRoom d q.length = true) :
    Fits d (q ++ [x]).length := by
  simpa using hasRoom_iff_fits.mp h

theorem suffix_of_eq_cons {q q' : List Byte} {x : Byte} (h : q = x :: q') : q' <:+ q :=
  h ▸ List.suffix_cons x q'

theorem crc32Running_keeps (d : Capacity) {blk blk' : Block} (h : crc32Running blk = some blk') :
    RunKeeps d blk blk' := by
  rcases (crc32Running_cases h).2 with ⟨_, x, q, hq, rfl⟩ | ⟨_, rfl⟩
  · exact ⟨rfl, rfl, rfl, rfl, rfl, rfl, .inl rfl, suffix_of_eq_cons hq, id⟩
  · exact ⟨rfl, rfl, rfl, rfl, rfl, rfl, .inr rfl, List.suffix_rfl, id⟩

theorem frameRunning_keeps {d : Capacity} {blk blk' : Block} (h : frameRunning d blk = some blk') :
    RunKeeps d blk blk' := by
  rcases (frameRunning_cases h).2 with ⟨_, hr, rfl⟩ | ⟨_, _, hr, rfl⟩ | ⟨_, _, hr, x, q, hq, rfl⟩ | ⟨_, _, hr, rfl⟩ |
    ⟨_, rfl⟩
  · exact ⟨rfl, rfl, rfl, rfl, rfl, rfl, .inl rfl, List.suffix_rfl, fun _ => fits_push _ hr⟩
  · exact ⟨rfl, rfl, rfl, rfl, rfl, rfl, .inl rfl, List.suffix_rfl, fun _ => fits_push _ hr⟩
  · exact ⟨rfl, rfl, rfl, rfl, rfl, rfl, .inl rfl, suffix_of_eq_cons hq, fun _ => fits_push _ hr⟩
  · exact ⟨rfl, rfl, rfl, rfl, rfl, rfl, .inl rfl, List.suffix_rfl, fun _ => fits_push _ hr⟩
  · exact ⟨rfl, rfl, rfl, rfl, rfl, rfl, .inr rfl, List.suffix_rfl, id⟩

theorem packRunning_keeps {d : Capacity} {blk blk' : Block} (h : packRunning d blk = some blk') :
    RunKeeps d blk blk' := by
  rcases (packRunning_cases h).2 with ⟨_, _, hr, rfl⟩ | ⟨_, _, _, hr, x, q, hq, rfl⟩ | ⟨_, _, _, hr, x, q, hq, rfl⟩ |
    ⟨_, rfl⟩
  · exact ⟨rfl, rfl, rfl, rfl, rfl, rfl, .inl rfl, List.suffix_rfl, fun _ => fits_push _ hr⟩
  · exact ⟨rfl, rfl, rfl, rfl, rfl, rfl, .inl rfl, suffix_of_eq_cons hq, fun _ => fits_push _ hr⟩
  · exact ⟨rfl, rfl, rfl, rfl, rfl, rfl, .inl rfl, suffix_of_eq_cons hq, fun _ => fits_push _ hr⟩
  · exact ⟨rfl, rfl, rfl, rfl, rfl, rfl, .inr rfl, List.suffix_rfl, id⟩

/-- `FRAME` and `PACK` write neither `rv` nor `result` (R14). -/
theorem frameRunning_keeps_result {d : Capacity} {blk blk' : Block} (h : frameRunning d blk = some blk') :
    blk'.rv = blk.rv ∧ blk'.result = blk.result := by
  rcases (frameRunning_cases h).2 with ⟨_, _, rfl⟩ | ⟨_, _, _, rfl⟩ | ⟨_, _, _, _, _, _, rfl⟩ | ⟨_, _, _, rfl⟩ |
    ⟨_, rfl⟩ <;> exact ⟨rfl, rfl⟩

theorem packRunning_keeps_result {d : Capacity} {blk blk' : Block} (h : packRunning d blk = some blk') :
    blk'.rv = blk.rv ∧ blk'.result = blk.result := by
  rcases (packRunning_cases h).2 with ⟨_, _, _, rfl⟩ | ⟨_, _, _, _, _, _, _, rfl⟩ | ⟨_, _, _, _, _, _, _, rfl⟩ |
    ⟨_, rfl⟩ <;> exact ⟨rfl, rfl⟩

/-- `step_cases`, with whose move it is: the block moves exactly where `blockNext` says that it is to move (log entry 1). -/
theorem step_eq_blockMove_or_hostMove {s t : State} (h : step s = .next t) :
    (blockNext s = true ∧ ∃ rest, BlockMove { s with schedule := rest } t) ∨
      ∃ m rest, s.schedule = .host m :: rest ∧ hostEnabled m s = true ∧ t = hostMove m { s with schedule := rest } := by
  cases hb : blockNext s with
  | true => exact .inl ⟨rfl, blockMove_of_blockNext hb h⟩
  | false =>
    obtain ⟨m, rest, hs, he⟩ := blockNext_eq_false_iff.mp hb
    have ht := (step_of_hostEnabled hs he).symm.trans h
    exact .inr ⟨m, rest, hs, he, (Host.Outcome.next.inj ht).symm⟩

/-- A scheduled host move that is not a reset is none. -/
theorem ne_reset_of_not_resetNext {s : State} {m : HostMove} {rest : List Turn} (hs : s.schedule = .host m :: rest)
    (hn : ¬ ResetNext s) : m ≠ .reset := by
  rintro rfl
  exact hn ⟨rest, hs⟩

end Sys2Proof.Machine
end

section
/-! SUPPORT. The machine's invariant, part by part (spec/10_state.md R9, R12, R13, R16): the part on `st`, `cause` and
the command in progress, then the part on the queues, each kept by every move of the block and of the host. -/

namespace Sys2Proof

open Sys2Proof.Machine

/-- `Inv` without the two queues. -/
structure ControlInv (blk : Block) : Prop where
  causeZero : blk.st ≠ .fault → blk.cause = 0
  causeCode : blk.st = .fault → ∃ c : FaultCode, blk.cause = c.code
  running : blk.st = .busy → CrcRunningInv blk ∨ FrameRunningInv blk ∨ PackRunningInv blk

/-- `Inv` on the two queues. -/
def QueuesFit (s : State) : Prop := Fits s.inDepth s.block.inQ.length ∧ Fits s.outDepth s.block.outQ.length

theorem inv_iff {s : State} : Inv s ↔ ControlInv s.block ∧ QueuesFit s :=
  ⟨fun ⟨h1, h2, h3, h4, h5⟩ => ⟨⟨h1, h2, h3⟩, h4, h5⟩, fun ⟨⟨h1, h2, h3⟩, h4, h5⟩ => ⟨h1, h2, h3, h4, h5⟩⟩

/-- Outside FAULT the invariant asks for `cause = 0` and, in BUSY, for a command within its bounds. -/
theorem controlInv_of_ne_fault {blk : Block} (hs : blk.st ≠ .fault) (hc : blk.cause = 0)
    (hr : blk.st = .busy → CrcRunningInv blk ∨ FrameRunningInv blk ∨ PackRunningInv blk) : ControlInv blk :=
  ⟨fun _ => hc, fun h => absurd h hs, hr⟩

theorem controlInv_of_idle {blk : Block} (hs : blk.st = .idle) (hc : blk.cause = 0) : ControlInv blk :=
  controlInv_of_ne_fault (by simp [hs]) hc (by simp [hs])

/-- Which of the three running invariants holds is read from the opcode latch. -/
theorem ControlInv.crc32 {blk : Block} (h : ControlInv blk) (hst : blk.st = .busy) (hop : blk.op = opCrc32) :
    CrcRunningInv blk := by
  rcases h.running hst with hi | hi | hi
  · exact hi
  · exact absurd (hop.symm.trans hi.op) (by decide)
  · exact absurd (hop.symm.trans hi.op) (by decide)

theorem ControlInv.frame {blk : Block} (h : ControlInv blk) (hst : blk.st = .busy) (hop : blk.op = opFrame) :
    FrameRunningInv blk := by
  rcases h.running hst with hi | hi | hi
  · exact absurd (hop.symm.trans hi.op) (by decide)
  · exact hi
  · exact absurd (hop.symm.trans hi.op) (by decide)

theorem ControlInv.pack {blk : Block} (h : ControlInv blk) (hst : blk.st = .busy) (hop : blk.op = opPack) :
    PackRunningInv blk := by
  rcases h.running hst with hi | hi | hi
  · exact absurd (hop.symm.trans hi.op) (by decide)
  · exact absurd (hop.symm.trans hi.op) (by decide)
  · exact hi

/-- An accepted command is within its bounds (R112). -/
theorem crc32Accept_inv (seed length : Word) (blk : Block) : CrcRunningInv (crc32Accept seed length blk) :=
  ⟨rfl, rfl, rfl, rfl, Nat.zero_le _⟩

theorem frameAccept_inv (tag length : Word) (blk : Block) : FrameRunningInv (frameAccept tag length blk) :=
  ⟨rfl, rfl, rfl, Nat.zero_le _⟩

theorem packAccept_inv {w h : Word} {d : Byte} (blk : Block) (hr : packRefusal w h d = none) :
    PackRunningInv (packAccept w h d blk) :=
  ⟨rfl, rfl, packRefusal_eq_none_iff.mp hr, Nat.zero_le _, Nat.zero_le _, fun _ => rfl⟩

/-- A step of the command in progress completes it or leaves it within its bounds (R16). -/
theorem crc32Running_inv {blk blk' : Block} (hi : CrcRunningInv blk) (h : crc32Running blk = some blk') :
    blk'.st = .idle ∨ CrcRunningInv blk' := by
  rcases (crc32Running_cases h).2 with ⟨hn, x, q, _, rfl⟩ | ⟨_, rfl⟩
  · exact .inr { hi with n := hn }
  · exact .inl rfl

theorem frameRunning_inv {d : Capacity} {blk blk' : Block} (hi : FrameRunningInv blk)
    (h : frameRunning d blk = some blk') : blk'.st = .idle ∨ FrameRunningInv blk' := by
  rcases (frameRunning_cases h).2 with ⟨hn, _, rfl⟩ | ⟨_, hn, _, rfl⟩ | ⟨_, hn, _, _, _, _, rfl⟩ | ⟨_, hn, _, rfl⟩ |
    ⟨_, rfl⟩
  · exact .inr { hi with n := by dsimp only; omega }
  · exact .inr { hi with n := by dsimp only; omega }
  · exact .inr { hi with n := by dsimp only; omega }
  · exact .inr { hi with n := hn }
  · exact .inl rfl

/-- A row begun has a byte to come, since a legal row is not empty (R86); the last row ends in `row = b` with `col = 0`. -/
theorem packRunning_inv {d : Capacity} {blk blk' : Block} (hi : PackRunningInv blk)
    (h : packRunning d blk = some blk') : blk'.st = .idle ∨ PackRunningInv blk' := by
  obtain ⟨hdepth, hwidth, _⟩ := hi.legal
  rcases (packRunning_cases h).2 with ⟨hr, _, _, rfl⟩ | ⟨hr, _, hc, _, _, _, _, rfl⟩ | ⟨hr, _, _, _, _, _, _, rfl⟩ |
    ⟨_, rfl⟩
  · exact .inr { hi with col := byteWidth_pos hwidth hdepth, last := fun he => absurd he hr.ne }
  · exact .inr { hi with col := hc, last := fun he => absurd he hr.ne }
  · exact .inr { hi with row := hr, col := Nat.zero_le _, last := fun _ => rfl }
  · exact .inl rfl

/-- So a step of the command in progress keeps the whole of `ControlInv`. -/
theorem ControlInv.of_run {d : Capacity} {blk blk' : Block} (h : ControlInv blk) (hst : blk.st = .busy)
    (hk : RunKeeps d blk blk')
    (hr : blk'.st = .idle ∨ CrcRunningInv blk' ∨ FrameRunningInv blk' ∨ PackRunningInv blk') : ControlInv blk' := by
  have hcause : blk'.cause = 0 := hk.cause.trans (h.causeZero (by simp [hst]))
  have hne : blk'.st ≠ .fault := by
    rcases hk.st with hs | hs <;> simp [hs, hst]
  exact controlInv_of_ne_fault hne hcause fun hb => hr.resolve_left (by simp [hb])

theorem blockMove_controlInv {s t : State} (h : ControlInv s.block) (hm : BlockMove s t) : ControlInv t.block := by
  have hidle : s.block.st = .idle → s.block.cause = 0 := fun hst => h.causeZero (by simp [hst])
  cases hm with
  | wait => exact h
  | refuse d c => exact ⟨fun hne => absurd rfl hne, fun _ => ⟨c, rfl⟩, fun hb => nomatch hb⟩
  | acceptCrc32 d seed length hst =>
    exact controlInv_of_ne_fault (by simp) (hidle hst) fun _ => .inl (crc32Accept_inv ..)
  | acceptFrame d tag length hst =>
    exact controlInv_of_ne_fault (by simp) (hidle hst) fun _ => .inr (.inl (frameAccept_inv ..))
  | acceptPack d w ht dp hst _ _ hr =>
    exact controlInv_of_ne_fault (by simp) (hidle hst) fun _ => .inr (.inr (packAccept_inv _ hr))
  | runCrc32 blk hst hr =>
    have hi := crc32Running_inv (h.crc32 hst (crc32Running_cases hr).1) hr
    exact h.of_run hst (crc32Running_keeps s.outDepth hr) (hi.imp_right .inl)
  | runFrame blk hst hr =>
    have hi := frameRunning_inv (h.frame hst (frameRunning_cases hr).1) hr
    exact h.of_run hst (frameRunning_keeps hr) (hi.imp_right (.inr ∘ .inl))
  | runPack blk hst hr =>
    have hi := packRunning_inv (h.pack hst (packRunning_cases hr).1) hr
    exact h.of_run hst (packRunning_keeps hr) (hi.imp_right (.inr ∘ .inr))

/-- A step of the command in progress keeps both queues within their capacities. -/
theorem QueuesFit.of_run {s : State} {blk : Block} (h : QueuesFit s) (hk : RunKeeps s.outDepth s.block blk) :
    QueuesFit (withBlock s blk) :=
  ⟨fits_mono h.1 hk.inQ.length_le, hk.outQ h.2⟩

theorem blockMove_queuesFit {s t : State} (h : QueuesFit s) (hm : BlockMove s t) : QueuesFit t := by
  cases hm with
  | wait | refuse | acceptCrc32 | acceptFrame | acceptPack => exact h
  | runCrc32 blk _ hr => exact h.of_run (crc32Running_keeps _ hr)
  | runFrame blk _ hr => exact h.of_run (frameRunning_keeps hr)
  | runPack blk _ hr => exact h.of_run (packRunning_keeps hr)

/-- `ControlInv` does not look at the queues. -/
theorem ControlInv.with_queues {blk : Block} (h : ControlInv blk) (i o : List Byte) :
    ControlInv { blk with inQ := i, outQ := o } := by
  refine ⟨h.causeZero, h.causeCode, fun hb => ?_⟩
  rcases h.running hb with hi | hi | hi
  · exact .inl { hi with }
  · exact .inr (.inl { hi with })
  · exact .inr (.inr { hi with })

theorem hostMove_controlInv (m : HostMove) {s : State} (h : ControlInv s.block) : ControlInv (hostMove m s).block := by
  by_cases hm : m = .reset
  · subst hm
    exact controlInv_of_idle rfl rfl
  · rw [hostMove_block m s hm]
    exact h.with_queues _ _

/-- An enabled move of the host keeps both queues within their capacities: a byte is offered only where one fits (R27). -/
theorem hostMove_queuesFit {m : HostMove} {s : State} (h : QueuesFit s) (he : hostEnabled m s = true) :
    QueuesFit (hostMove m s) := by
  cases m with
  | issue | readStatus | readResult => exact h
  | offer x => exact ⟨by simpa [hostMove] using offer_enabled_iff.mp he, h.2⟩
  | take =>
    obtain ⟨x, q, hq⟩ := take_enabled_iff.mp he
    rw [hostMove, hostTake_eq hq]
    exact ⟨h.1, fits_mono h.2 (suffix_of_eq_cons hq).length_le⟩
  | reset => exact ⟨fits_zero _, fits_zero _⟩

theorem blockMove_inv {s t : State} (h : Inv s) (hm : BlockMove s t) : Inv t :=
  inv_iff.mpr ((inv_iff.mp h).imp (fun hc => blockMove_controlInv hc hm) fun hq => blockMove_queuesFit hq hm)

theorem hostMove_inv {m : HostMove} {s : State} (h : Inv s) (he : hostEnabled m s = true) : Inv (hostMove m s) :=
  inv_iff.mpr ((inv_iff.mp h).imp (hostMove_controlInv m) fun hq => hostMove_queuesFit hq he)

/-- The invariant does not look at the turns to come, nor does the enabling of a host move (R141). -/
theorem Inv.with_schedule {s : State} (h : Inv s) (rest : List Turn) : Inv { s with schedule := rest } := { h with }

theorem hostEnabled_with_schedule (m : HostMove) (s : State) (rest : List Turn) :
    hostEnabled m { s with schedule := rest } = hostEnabled m s := by
  cases m <;> rfl

theorem step_inv {s t : State} (h : Inv s) (hs : step s = .next t) : Inv t := by
  rcases step_cases hs with ⟨rest, _, hb⟩ | ⟨m, rest, _, he, rfl⟩
  · exact blockMove_inv (h.with_schedule rest) hb
  · exact hostMove_inv (h.with_schedule rest) ((hostEnabled_with_schedule m s rest).trans he)

/-- Settles O40: each move of the block and each enabled move of the host keeps both parts of the invariant. -/
theorem goodStateKeptByStep : Obligations.GoodStateKeptByStep := fun _ _ => step_inv

/-- Settles O39. -/
theorem goodStateAtReset : Obligations.GoodStateAtReset :=
  inv_iff.mpr ⟨controlInv_of_idle rfl rfl, fits_zero _, fits_zero _⟩

end Sys2Proof
end

section
/-! SUPPORT. From a good state a step always answers a next state (spec/60_exceptions.md R116), and the counters in the
numbers of spec/10_state.md R16. -/

namespace Sys2Proof

open Sys2Proof.Machine

/-- One block step of a command always answers a next state: taken, waiting, or the spec's fault. -/
theorem exec_total (i : Instr) (s : State) : ∃ t, exec i s = .next t := by
  have hstep : ∀ {acc run}, (∃ t, acc = .next t) → ∃ t, commandStep s acc run = .next t := by
    intro acc run hacc
    unfold commandStep
    split
    · exact hacc
    · exact advance_total s run
    · exact ⟨s, rfl⟩
  cases i with
  | crc32 seed length => exact hstep ⟨_, rfl⟩
  | frame tag length => exact hstep ⟨_, rfl⟩
  | pack w h d =>
    refine hstep ?_
    unfold packOffer
    split <;> exact ⟨_, rfl⟩

theorem offerTurn_total (s : State) : ∃ t, offerTurn s = .next t := by
  unfold offerTurn
  split
  · exact ⟨s, rfl⟩
  · split
    · exact ⟨_, rfl⟩
    · exact exec_total _ s

theorem runningInstr_of_crc32 {blk : Block} (h : blk.op = opCrc32) : runningInstr blk = some (.crc32 blk.a blk.b) := by
  simp [runningInstr, h]

theorem runningInstr_of_frame {blk : Block} (h : blk.op = opFrame) : runningInstr blk = some (.frame blk.a blk.b) := by
  simp [runningInstr, h, show opFrame ≠ opCrc32 by decide]

theorem runningInstr_of_pack {blk : Block} (h : blk.op = opPack) :
    runningInstr blk = some (.pack blk.a blk.b blk.depth) := by
  simp [runningInstr, h, show opPack ≠ opCrc32 by decide, show opPack ≠ opFrame by decide]

/-- The block's turn in BUSY is one block step of the command in its latches. -/
theorem busyTurn_eq_exec {s : State} {i : Instr} (h : runningInstr s.block = some i) : busyTurn s = exec i s := by
  simp [busyTurn, h]

/-- The one stop of the model, BUSY with no command's opcode latched, is no good state (log entry 6). -/
theorem blockTurn_total {s : State} (h : Inv s) : ∃ t, blockTurn s = .next t := by
  unfold blockTurn
  split
  · exact offerTurn_total s
  · next hst =>
    rcases h.running hst with hi | hi | hi
    · exact busyTurn_eq_exec (runningInstr_of_crc32 hi.op) ▸ exec_total _ s
    · exact busyTurn_eq_exec (runningInstr_of_frame hi.op) ▸ exec_total _ s
    · exact busyTurn_eq_exec (runningInstr_of_pack hi.op) ▸ exec_total _ s
  · exact ⟨s, rfl⟩

/-- Settles O42: an enabled host move answers, and so does the block's turn from a good state. -/
theorem goodStateAlwaysSteps : Obligations.GoodStateAlwaysSteps := by
  intro s h
  unfold step turn
  split
  · exact blockTurn_total h
  · exact blockTurn_total (h.with_schedule _)
  · split
    · exact ⟨_, rfl⟩
    · exact blockTurn_total h

/-- A legal row has at most two bytes a pixel (R86). -/
theorem byteWidth_le {w : Word} {d : Byte} (hd : d ∈ legalDepths) : byteWidth w.toNat d.toNat ≤ 2 * w.toNat := by
  have hd' : d.toNat ≤ 16 := by
    simp only [legalDepths, List.mem_cons, List.not_mem_nil, or_false] at hd
    rcases hd with rfl | rfl | rfl | rfl | rfl <;> decide
  have hp : w.toNat * d.toNat ≤ w.toNat * 16 := Nat.mul_le_mul_left _ hd'
  unfold byteWidth
  omega

/-- Settles O41: each counter is bounded by a latched operand, which is a uint32. -/
theorem countersStayBounded : Obligations.CountersStayBounded := by
  intro s h hst
  have hc : ControlInv s.block := (inv_iff.mp h).1
  have hb := s.block.b.isLt
  refine ⟨fun hop => ?_, fun hop => ?_, fun hop => ?_⟩
  · have hn := (hc.crc32 hst hop).n
    omega
  · have hn := (hc.frame hst hop).n
    omega
  · obtain ⟨_, _, ⟨hdepth, _, _⟩, hrow, hcol, _⟩ := hc.pack hst hop
    have ha := s.block.a.isLt
    have hw : latchedByteWidth s.block ≤ 2 * s.block.a.toNat := byteWidth_le hdepth
    omega

end Sys2Proof
end

section
/-! SUPPORT. A block without an enabled step (spec/60_exceptions.md R117, R118). -/

namespace Sys2Proof

open Sys2Proof.Machine

/-- A command whose next step pushes a byte has no step while `out_q` is full (R28, R117). -/
theorem frameRunning_eq_none_of_full {d : Capacity} {blk : Block} (hn : blk.n < 12 + blk.b.toNat)
    (hf : hasRoom d blk.outQ.length = false) : frameRunning d blk = none := by
  refine Option.eq_none_iff_forall_ne_some.mpr fun blk' h => ?_
  rcases (frameRunning_cases h).2 with ⟨_, hr, _⟩ | ⟨_, _, hr, _⟩ | ⟨_, _, hr, _⟩ | ⟨_, _, hr, _⟩ | ⟨he, _⟩
  · exact absurd hr (by simp [hf])
  · exact absurd hr (by simp [hf])
  · exact absurd hr (by simp [hf])
  · exact absurd hr (by simp [hf])
  · exact absurd he hn.ne

theorem packRunning_eq_none_of_full {d : Capacity} {blk : Block} (hn : blk.row < blk.b.toNat)
    (hf : hasRoom d blk.outQ.length = false) : packRunning d blk = none := by
  refine Option.eq_none_iff_forall_ne_some.mpr fun blk' h => ?_
  rcases (packRunning_cases h).2 with ⟨_, _, hr, _⟩ | ⟨_, _, _, hr, _⟩ | ⟨_, _, _, hr, _⟩ | ⟨he, _⟩
  · exact absurd hr (by simp [hf])
  · exact absurd hr (by simp [hf])
  · exact absurd hr (by simp [hf])
  · exact absurd he hn.ne

/-- The block's turn changes nothing when the block has no enabled step (log entry 11). -/
theorem blockTurn_of_noBlockStep {s : State} (h : NoBlockStep s) : blockTurn s = .next s := by
  rcases h with ⟨hst, ho⟩ | hst | ⟨hst, ⟨hop, hn⟩ | ⟨hop, hn⟩ | ⟨hop, hn⟩⟩
  · simp [blockTurn, hst, offerTurn, ho]
  · simp [blockTurn, hst]
  · simp [blockTurn, hst, busyTurn_eq_exec (runningInstr_of_crc32 hop), exec, execCrc32, commandStep, hn, advance]
  · simp [blockTurn, hst, busyTurn_eq_exec (runningInstr_of_frame hop), exec, execFrame, commandStep, hn, advance]
  · simp [blockTurn, hst, busyTurn_eq_exec (runningInstr_of_pack hop), exec, execPack, commandStep, hn, advance]

/-- In each of the three ways the block comes to move (log entry 1). -/
theorem blockSteps_of_noBlockStep {s : State} (h : NoBlockStep s) : BlockSteps s .next :=
  blockSteps_of_blockTurn fun _ => blockTurn_of_noBlockStep h

/-- Settles O21: a command that lacks an input byte waits on IN, one that lacks room waits because nothing fits OUT. -/
theorem starvedCommandWaits : Obligations.StarvedCommandWaits := by
  intro s h
  have hfull : ¬ Fits s.outDepth (s.block.outQ.length + 1) → hasRoom s.outDepth s.block.outQ.length = false :=
    fun hf => Bool.eq_false_iff.mpr (hf ∘ hasRoom_iff_fits.mp)
  apply blockSteps_of_noBlockStep
  rcases h with hidle | ⟨hst, ⟨hop, hn, hq⟩ | ⟨hop, hlo, hhi, hq⟩ | ⟨hop, hn, hf⟩ | ⟨hop, hr, hlo, hhi, hq⟩ |
    ⟨hop, hr, _, hf⟩⟩
  · exact .inl hidle
  · exact .inr (.inr (waiting_of_waitsOnIn ⟨hst, hq, .inl ⟨hop, hn⟩⟩))
  · exact .inr (.inr (waiting_of_waitsOnIn ⟨hst, hq, .inr (.inl ⟨hop, hlo, hhi⟩)⟩))
  · exact .inr (.inr ⟨hst, .inr (.inl ⟨hop, frameRunning_eq_none_of_full hn (hfull hf)⟩)⟩)
  · exact .inr (.inr (waiting_of_waitsOnIn ⟨hst, hq, .inr (.inr ⟨hop, hr, hlo, hhi⟩)⟩))
  · exact .inr (.inr ⟨hst, .inr (.inr ⟨hop, packRunning_eq_none_of_full hr (hfull hf)⟩)⟩)

end Sys2Proof
end

section
/-! SUPPORT. What a step that is no reset leaves alone: `result` and `rv` (spec/10_state.md R14) and the latches (R10,
R38). -/

namespace Sys2Proof

open Sys2Proof.Machine

/-- A host move other than a reset keeps all of the block but its two queues, so whatever does not look at them. -/
theorem hostMove_keeps_of_not_resetNext {s : State} {m : HostMove} {rest : List Turn}
    (hs : s.schedule = .host m :: rest) (hn : ¬ ResetNext s) :
    ∃ i o, (hostMove m { s with schedule := rest }).block = { s.block with inQ := i, outQ := o } :=
  ⟨_, _, hostMove_block m _ (ne_reset_of_not_resetNext hs hn)⟩

/-- Settles O45: of the block's moves only the accept and the done step of `CRC32` write `rv` or `result`. -/
theorem resultWrittenOnlyByCrc : Obligations.ResultWrittenOnlyByCrc := by
  intro s t h hn
  rcases step_cases h with ⟨rest, _, hb⟩ | ⟨m, rest, hs, _, rfl⟩
  · cases hb with
    | wait | refuse | acceptFrame | acceptPack => exact .inl ⟨rfl, rfl⟩
    | acceptCrc32 d seed length hst ho hd =>
      exact .inr (.inl ⟨hst, ⟨d, seed, length, ho, hd⟩, rfl, rfl, rfl⟩)
    | runCrc32 blk hst hr =>
      obtain ⟨hop, ⟨_, x, q, _, rfl⟩ | ⟨hdone, rfl⟩⟩ := crc32Running_cases hr
      · exact .inl ⟨rfl, rfl⟩
      · exact .inr (.inr ⟨hst, hop, hdone, rfl, rfl, rfl⟩)
    | runFrame blk _ hr => exact .inl (frameRunning_keeps_result hr)
    | runPack blk _ hr => exact .inl (packRunning_keeps_result hr)
  · obtain ⟨i, o, hblk⟩ := hostMove_keeps_of_not_resetNext hs hn
    rw [hblk]
    exact .inl ⟨rfl, rfl⟩

/-- The five latches of one block are those of another (R10). -/
def SameLatches (blk blk' : Block) : Prop :=
  blk'.op = blk.op ∧ blk'.a = blk.a ∧ blk'.b = blk.b ∧ blk'.depth = blk.depth ∧ blk'.filter = blk.filter

theorem sameLatches_of_runKeeps {d : Capacity} {blk blk' : Block} (h : RunKeeps d blk blk') : SameLatches blk blk' :=
  ⟨h.op, h.a, h.b, h.depth, h.filter⟩

/-- A move of the block on which R52 finds nothing valid on offer is no accept, and keeps the latches. -/
theorem blockMove_sameLatches {s t : State} (hm : BlockMove s t)
    (hn : s.block.st = .idle → ∀ d, s.offer = some d → refusalCode d ≠ none) : SameLatches s.block t.block := by
  cases hm with
  | wait | refuse => exact ⟨rfl, rfl, rfl, rfl, rfl⟩
  | acceptCrc32 d _ _ hst ho hd => exact absurd (by simp [refusalCode_eq, hd]) (hn hst d ho)
  | acceptFrame d _ _ hst ho hd => exact absurd (by simp [refusalCode_eq, hd]) (hn hst d ho)
  | acceptPack d _ _ _ hst ho hd hr => exact absurd (by simp [refusalCode_eq, hd, hr]) (hn hst d ho)
  | runCrc32 blk _ hr => exact sameLatches_of_runKeeps (crc32Running_keeps s.outDepth hr)
  | runFrame blk _ hr => exact sameLatches_of_runKeeps (frameRunning_keeps hr)
  | runPack blk _ hr => exact sameLatches_of_runKeeps (packRunning_keeps hr)

/-- Settles O46. -/
theorem latchesHoldUntilNextAccept : Obligations.LatchesHoldUntilNextAccept := by
  intro s t h hn hacc
  change SameLatches s.block t.block
  rcases step_eq_blockMove_or_hostMove h with ⟨hb, rest, hm⟩ | ⟨m, rest, hs, _, rfl⟩
  · have hkept := blockMove_sameLatches hm fun hst d ho hv =>
      absurd (acceptsNext_eq_some_iff.mpr ⟨hb, hst, ho, hv⟩) (by simp [hacc])
    exact hkept
  · obtain ⟨i, o, hblk⟩ := hostMove_keeps_of_not_resetNext hs hn
    rw [hblk]
    exact ⟨rfl, rfl, rfl, rfl, rfl⟩

end Sys2Proof
end

section
/-! SUPPORT. Reset and the two registers (spec/10_state.md R19, R20, R24). -/

namespace Sys2Proof

open Sys2Proof.Machine BitVec

/-- Settles O38. -/
theorem resetLeavesSpecValues : Obligations.ResetLeavesSpecValues := ⟨rfl, rfl, rfl, rfl, rfl, rfl⟩

/-- Settles O54: the read is enabled in every state (R141). -/
theorem statusReadEffect : Obligations.StatusReadEffect := fun _ _ hs => step_of_hostEnabled hs rfl

/-- Settles O56: the read is enabled in every state, and gives `resultWord`. -/
theorem resultReadEffect : Obligations.ResultReadEffect := fun s _ hs =>
  ⟨_, _, step_of_hostEnabled hs rfl, rfl, fun hv => (resultWord_of_valid hv s.draws).1, rfl⟩

/-- Settles O55: each field is cut out of the word past the fields to its right. -/
theorem statusWordLayout : Obligations.StatusWordLayout := by
  intro k
  have hst : (statusWord k).extractLsb 1 0 = statusField k.st :=
    (extractLsb'_append_eq_of_add_le (by decide)).trans extractLsb'_eq_self
  refine ⟨hst.trans ?_, ?_, ?_, ?_, ?_⟩
  · cases k.st <;> rfl
  · exact (extractLsb'_append_eq_of_le (by decide)).trans <|
      (extractLsb'_append_eq_of_add_le (by decide)).trans extractLsb'_eq_self
  · exact (extractLsb'_append_eq_of_le (by decide)).trans <| (extractLsb'_append_eq_of_le (by decide)).trans <|
      (extractLsb'_append_eq_of_add_le (by decide)).trans extractLsb'_eq_self
  · simp only [statusWord, getLsbD_append]
    simp
  · exact (extractLsb'_append_eq_of_le (by decide)).trans <| (extractLsb'_append_eq_of_le (by decide)).trans <|
      (extractLsb'_append_eq_of_le (by decide)).trans <| (extractLsb'_append_eq_of_le (by decide)).trans
        extractLsb'_eq_self

end Sys2Proof
end

section
/-! SUPPORT. What the host cannot tell apart (spec/10_state.md R22, R23): the block's part of `SameForHost`, and that
every move of the block and of the host answers alike from two blocks that it relates. -/

namespace Sys2Proof

open Sys2Proof.Machine

/-- The block's part of `SameForHost`. -/
structure SameBlock (b c : Block) : Prop where
  st : b.st = c.st
  cause : b.cause = c.cause
  rv : b.rv = c.rv
  inQ : b.inQ = c.inQ
  outQ : b.outQ = c.outQ
  result : b.rv = true → b.result = c.result
  latches : b.st = .busy → b.op = c.op ∧ b.a = c.a ∧ b.b = c.b ∧ b.depth = c.depth ∧ b.filter = c.filter ∧
    b.n = c.n ∧ b.row = c.row ∧ b.col = c.col
  acc : b.st = .busy → b.op ≠ opPack → b.acc = c.acc

theorem SameBlock.refl (b : Block) : SameBlock b b :=
  ⟨rfl, rfl, rfl, rfl, rfl, fun _ => rfl, fun _ => ⟨rfl, rfl, rfl, rfl, rfl, rfl, rfl, rfl⟩, fun _ _ => rfl⟩

/-- Two states the host cannot tell apart are one state with two such blocks. -/
theorem SameForHost.exists_withBlock {s t : State} (h : SameForHost s t) :
    ∃ c, t = withBlock s c ∧ SameBlock s.block c := by
  obtain ⟨blk, offer, inDepth, outDepth, regMap, schedule, taken, statusReads, resultReads, draws⟩ := t
  obtain ⟨rfl, rfl, rfl, rfl, rfl, rfl, rfl, rfl, rfl, hst, hcause, hrv, hin, hout, hresult, hlatches, hacc⟩ := h
  exact ⟨blk, rfl, hst, hcause, hrv, hin, hout, hresult, hlatches, hacc⟩

theorem SameBlock.sameForHost {s : State} {c : Block} (h : SameBlock s.block c) : SameForHost s (withBlock s c) :=
  ⟨rfl, rfl, rfl, rfl, rfl, rfl, rfl, rfl, rfl, h.st, h.cause, h.rv, h.inQ, h.outQ, h.result, h.latches, h.acc⟩

/-- While a command runs, two such blocks differ at most in a `result` that is not valid and in the `acc` of a `PACK`. -/
theorem SameBlock.exists_of_busy {b c : Block} (h : SameBlock b c) (hst : b.st = .busy) :
    ∃ r x, c = { b with result := r, acc := x } ∧ (b.rv = true → b.result = r) ∧ (b.op ≠ opPack → b.acc = x) := by
  obtain ⟨st, cause, rv, result, op, a, b', depth, filter, acc, n, row, col, inQ, outQ⟩ := c
  obtain ⟨rfl, rfl, rfl, rfl, rfl, hresult, hlatches, hacc⟩ := h
  obtain ⟨rfl, rfl, rfl, rfl, rfl, rfl, rfl, rfl⟩ := hlatches hst
  exact ⟨result, acc, rfl, hresult, hacc hst⟩

theorem SameBlock.with_hidden {b : Block} {r x : Word} (hr : b.rv = true → b.result = r)
    (hx : b.op ≠ opPack → b.acc = x) : SameBlock b { b with result := r, acc := x } :=
  { SameBlock.refl b with result := hr, acc := fun _ => hx }

theorem SameBlock.with_result {b : Block} {r : Word} (hr : b.rv = true → b.result = r) :
    SameBlock b { b with result := r } :=
  SameBlock.with_hidden hr fun _ => rfl

/-! The moves of the block, from two such blocks. -/

theorem SameBlock.faultEntry {b c : Block} (h : SameBlock b c) (code : FaultCode) :
    SameBlock (faultEntry code b) (faultEntry code c) :=
  { h with st := rfl, cause := rfl, latches := nofun, acc := nofun }

theorem SameBlock.crc32Accept {b c : Block} (h : SameBlock b c) (seed length : Word) :
    SameBlock (crc32Accept seed length b) (crc32Accept seed length c) :=
  { SameBlock.refl (Machine.crc32Accept seed length b) with
    cause := h.cause, inQ := h.inQ, outQ := h.outQ, result := nofun }

theorem SameBlock.frameAccept {b c : Block} (h : SameBlock b c) (tag length : Word) :
    SameBlock (frameAccept tag length b) (frameAccept tag length c) :=
  { SameBlock.refl (Machine.frameAccept tag length b) with
    cause := h.cause, rv := h.rv, inQ := h.inQ, outQ := h.outQ, result := h.result }

/-- `PACK` leaves `acc` unspecified, and reads none (R93). -/
theorem SameBlock.packAccept {b c : Block} (h : SameBlock b c) (width height : Word) (depth : Byte) :
    SameBlock (packAccept width height depth b) (packAccept width height depth c) :=
  { SameBlock.refl (Machine.packAccept width height depth b) with
    cause := h.cause, rv := h.rv, inQ := h.inQ, outQ := h.outQ, result := h.result
    acc := fun _ hop => absurd rfl hop }

theorem SameBlock.outPush {b c : Block} (h : SameBlock b c) (d : Capacity) (x : Byte) :
    Option.Rel SameBlock (outPush d x b) (outPush d x c) := by
  unfold Machine.outPush
  rw [← h.outQ]
  split
  · exact .some { h with outQ := rfl }
  · exact .none

theorem SameBlock.crc32Running {b c : Block} (h : SameBlock b c) (hst : b.st = .busy) :
    Option.Rel SameBlock (crc32Running b) (crc32Running c) := by
  obtain ⟨r, x, rfl, hr, hx⟩ := h.exists_of_busy hst
  unfold Machine.crc32Running
  dsimp only
  split_ifs with hop hn hd
  · obtain rfl := hx (by rw [hop]; decide)
    unfold crcByte inPop
    cases b.inQ with
    | nil => exact .none
    | cons y q => exact .some (.with_result (by exact hr))
  · obtain rfl := hx (by rw [hop]; decide)
    exact .some (.refl _)
  · exact .none
  · exact .none

theorem SameBlock.frameRunning {b c : Block} (h : SameBlock b c) (hst : b.st = .busy) (d : Capacity) :
    Option.Rel SameBlock (frameRunning d b) (frameRunning d c) := by
  obtain ⟨r, x, rfl, hr, hx⟩ := h.exists_of_busy hst
  unfold Machine.frameRunning
  dsimp only
  by_cases hop : b.op = opFrame
  · obtain rfl := hx (by rw [hop]; decide)
    rw [if_pos hop, if_pos hop]
    split_ifs
    · exact SameBlock.outPush (.with_result (by exact hr)) d _
    · exact SameBlock.outPush (.with_result (by exact hr)) d _
    · unfold frmPay inPop
      cases b.inQ with
      | nil => exact .none
      | cons y q => exact SameBlock.outPush (.with_result (by exact hr)) d y
    · exact SameBlock.outPush (.with_result (by exact hr)) d _
    · exact .some (.with_result (by exact hr))
    · exact .none
  · rw [if_neg hop, if_neg hop]
    exact .none

/-- The position after a pixel byte is read from the latches and the counters (R95). -/
theorem SameBlock.pckNext {b c : Block} (h : SameBlock b c) (hst : b.st = .busy) :
    SameBlock (pckNext b) (pckNext c) := by
  obtain ⟨r, x, rfl, hr, hx⟩ := h.exists_of_busy hst
  change SameBlock _ (if b.col = latchedByteWidth b then _ else _)
  unfold Machine.pckNext
  split_ifs
  · exact .with_hidden (by exact hr) (by exact hx)
  · exact .with_hidden (by exact hr) (by exact hx)

theorem SameBlock.packRunning {b c : Block} (h : SameBlock b c) (hst : b.st = .busy) (d : Capacity) :
    Option.Rel SameBlock (packRunning d b) (packRunning d c) := by
  obtain ⟨r, x, rfl, hr, hx⟩ := h.exists_of_busy hst
  have hbw : latchedByteWidth { b with result := r, acc := x } = latchedByteWidth b := rfl
  unfold Machine.packRunning
  simp only [hbw]
  split_ifs
  · exact SameBlock.outPush (.with_hidden (by exact hr) (by exact hx)) d _
  · unfold pckData inPop
    cases b.inQ with
    | nil => exact .none
    | cons y q =>
      exact SameBlock.outPush (.pckNext (.with_hidden (by exact hr) (by exact hx)) (by exact hst)) d y
  · exact .none
  · exact .some (.with_hidden (by exact hr) (by exact hx))
  · exact .none
  · exact .none

/-- Where the first answer is a next state, the second is that state but for a block the host cannot tell from its. -/
def SameAnswer (o o' : Host.Outcome State Fault Refusal) : Prop :=
  ∀ t, o = .next t → ∃ c, o' = .next (withBlock t c) ∧ SameBlock t.block c

theorem SameAnswer.next {s : State} {c : Block} (h : SameBlock s.block c) :
    SameAnswer (.next s) (.next (withBlock s c)) := by
  rintro t ⟨⟩
  exact ⟨c, rfl, h⟩

theorem SameAnswer.advance {s : State} {c : Block} (h : SameBlock s.block c) {run run' : Option Block}
    (hr : Option.Rel SameBlock run run') : SameAnswer (advance s run) (advance (withBlock s c) run') := by
  cases hr with
  | some hb => exact .next (s := withBlock s _) hb
  | none => exact .next h

theorem SameAnswer.commandStep {s : State} {c : Block} (h : SameBlock s.block c)
    {acc acc' : Host.Outcome State Fault Refusal} {run run' : Option Block} (ha : SameAnswer acc acc')
    (hr : s.block.st = .busy → Option.Rel SameBlock run run') :
    SameAnswer (commandStep s acc run) (commandStep (withBlock s c) acc' run') := by
  unfold Machine.commandStep
  rw [withBlock_block, ← h.st]
  cases hst : s.block.st with
  | idle => exact ha
  | busy => exact .advance h (hr hst)
  | fault => exact .next h

/-- The offer is consumed alike. -/
theorem SameAnswer.takeOffer {s : State} {c k l : Block} (h : SameBlock k l) :
    SameAnswer (.next (takeOffer s k)) (.next (takeOffer (withBlock s c) l)) :=
  .next (s := Machine.takeOffer s k) h

theorem SameAnswer.exec {s : State} {c : Block} (h : SameBlock s.block c) (i : Instr) :
    SameAnswer (exec i s) (exec i (withBlock s c)) := by
  cases i with
  | crc32 seed length => exact .commandStep h (.takeOffer (h.crc32Accept seed length)) h.crc32Running
  | frame tag length =>
    exact .commandStep h (.takeOffer (h.frameAccept tag length)) fun hst => h.frameRunning hst s.outDepth
  | pack width height depth =>
    refine .commandStep h ?_ fun hst => h.packRunning hst s.outDepth
    unfold packOffer
    cases packRefusal width height depth with
    | some code => exact .takeOffer (h.faultEntry code)
    | none => exact .takeOffer (h.packAccept width height depth)

theorem SameAnswer.offerTurn {s : State} {c : Block} (h : SameBlock s.block c) :
    SameAnswer (offerTurn s) (offerTurn (withBlock s c)) := by
  unfold Machine.offerTurn
  rw [withBlock_offer]
  cases s.offer with
  | none => exact .next h
  | some d =>
    dsimp only
    cases decode d with
    | error code => exact .takeOffer (h.faultEntry code)
    | ok i => exact .exec h i

theorem SameBlock.runningInstr {b c : Block} (h : SameBlock b c) (hst : b.st = .busy) :
    runningInstr b = runningInstr c := by
  obtain ⟨r, x, rfl, _, _⟩ := h.exists_of_busy hst
  rfl

theorem SameAnswer.busyTurn {s : State} {c : Block} (h : SameBlock s.block c) (hst : s.block.st = .busy) :
    SameAnswer (busyTurn s) (busyTurn (withBlock s c)) := by
  unfold Machine.busyTurn
  rw [withBlock_block, ← h.runningInstr hst]
  cases Machine.runningInstr s.block with
  | none => exact fun _ hn => nomatch hn
  | some i => exact .exec h i

theorem SameAnswer.blockTurn {s : State} {c : Block} (h : SameBlock s.block c) :
    SameAnswer (blockTurn s) (blockTurn (withBlock s c)) := by
  unfold Machine.blockTurn
  rw [withBlock_block, ← h.st]
  cases hst : s.block.st with
  | idle => exact .offerTurn h
  | busy => exact .busyTurn h hst
  | fault => exact .next h

/-! The moves of the host, from two such blocks. -/

theorem SameBlock.hostEnabled {s : State} {c : Block} (h : SameBlock s.block c) (m : HostMove) :
    hostEnabled m (withBlock s c) = hostEnabled m s := by
  cases m <;> simp [Machine.hostEnabled, h.inQ, h.outQ]

theorem SameBlock.statusWord {b c : Block} (h : SameBlock b c) : statusWord c = statusWord b := by
  simp [Machine.statusWord, h.st, h.cause, h.rv]

/-- A read of RESULT shows `result` only where it is valid (R20). -/
theorem SameBlock.resultWord {b c : Block} (h : SameBlock b c) (k : Nat) :
    resultWord c k = resultWord b k ∧ resultDraws c = resultDraws b := by
  refine ⟨?_, by simp [resultDraws, h.rv]⟩
  cases hv : b.rv with
  | true => rw [(resultWord_of_valid hv k).1, (resultWord_of_valid (h.rv ▸ hv) k).1, h.result hv]
  | false => rw [(resultWord_of_invalid hv k).1, (resultWord_of_invalid (h.rv ▸ hv) k).1]

theorem SameBlock.hostMove {s : State} {c : Block} (h : SameBlock s.block c) (m : HostMove) :
    ∃ c', hostMove m (withBlock s c) = withBlock (hostMove m s) c' ∧ SameBlock (hostMove m s).block c' := by
  cases m with
  | issue d => exact ⟨c, rfl, h⟩
  | offer x => exact ⟨{ c with inQ := c.inQ ++ [x] }, rfl, { h with inQ := congrArg (· ++ [x]) h.inQ }⟩
  | take =>
    simp only [Machine.hostMove]
    cases hq : s.block.outQ with
    | nil =>
      rw [hostTake_of_empty hq, hostTake_of_empty (h.outQ ▸ hq)]
      exact ⟨c, rfl, h⟩
    | cons x q =>
      rw [hostTake_eq hq, hostTake_eq (h.outQ ▸ hq)]
      exact ⟨{ c with outQ := q }, rfl, { h with outQ := rfl }⟩
  | readStatus =>
    refine ⟨c, ?_, h⟩
    simp [Machine.hostMove, hostReadStatus, withBlock, h.statusWord]
  | readResult =>
    obtain ⟨hword, hdraws⟩ := h.resultWord s.draws
    refine ⟨c, ?_, h⟩
    simp [Machine.hostMove, hostReadResult, withBlock, hword, hdraws]
  | reset => exact ⟨_, rfl, .refl _⟩

theorem SameAnswer.hostMove {s : State} {c : Block} (h : SameBlock s.block c) (m : HostMove) :
    SameAnswer (.next (hostMove m s)) (.next (hostMove m (withBlock s c))) := by
  obtain ⟨c', hm, hb⟩ := h.hostMove m
  rw [hm]
  exact .next hb

theorem SameAnswer.step {s : State} {c : Block} (h : SameBlock s.block c) :
    SameAnswer (step s) (step (withBlock s c)) := by
  unfold Machine.step turn
  rw [withBlock_schedule]
  rcases s.schedule with _ | ⟨_ | m, rest⟩
  · exact .blockTurn h
  · exact .blockTurn (s := { s with schedule := rest }) h
  · dsimp only
    rw [h.hostEnabled m]
    split
    · exact .hostMove (s := { s with schedule := rest }) h m
    · exact .blockTurn h

/-- Settles O50: two states the host cannot tell apart are one state with two blocks that answer every move alike. -/
theorem hiddenStateIsNeverSeen : Obligations.HiddenStateIsNeverSeen := by
  intro s₁ s₂ t₁ h hs
  obtain ⟨c, rfl, hc⟩ := h.exists_withBlock
  obtain ⟨c', ht, hc'⟩ := SameAnswer.step hc t₁ hs
  exact ⟨withBlock t₁ c', ht, hc'.sameForHost⟩

end Sys2Proof
end

section
/-! SUPPORT. The two byte streams (spec/20_memory.md R27, R28): what one move of the block or of the host does to them. -/

namespace Sys2Proof.Machine

/-- A step of the block takes the bytes `consumed` from the front of `in_q` and adds the bytes `pushed` at the end of
`out_q`, at most one of each; only in BUSY does it take one (R35). -/
structure StreamStep (blk blk' : Block) (consumed pushed : List Byte) : Prop where
  inQ : blk.inQ = consumed ++ blk'.inQ
  outQ : blk'.outQ = blk.outQ ++ pushed
  consumed_le : consumed.length ≤ 1
  pushed_le : pushed.length ≤ 1
  consumed_eq_nil : blk.st ≠ .busy → consumed = []

namespace StreamStep

variable {blk blk' : Block} {x : Byte}

theorem still (hi : blk'.inQ = blk.inQ) (ho : blk'.outQ = blk.outQ) : StreamStep blk blk' [] [] :=
  ⟨hi.symm, by simp [ho], Nat.zero_le _, Nat.zero_le _, fun _ => rfl⟩

theorem pop (hst : blk.st = .busy) (hi : blk.inQ = x :: blk'.inQ) (ho : blk'.outQ = blk.outQ) :
    StreamStep blk blk' [x] [] :=
  ⟨hi, by simp [ho], Nat.le_refl _, Nat.zero_le _, fun hn => absurd hst hn⟩

theorem push (hi : blk'.inQ = blk.inQ) (ho : blk'.outQ = blk.outQ ++ [x]) : StreamStep blk blk' [] [x] :=
  ⟨hi.symm, ho, Nat.zero_le _, Nat.le_refl _, fun _ => rfl⟩

theorem copy (hst : blk.st = .busy) (hi : blk.inQ = x :: blk'.inQ) (ho : blk'.outQ = blk.outQ ++ [x]) :
    StreamStep blk blk' [x] [x] :=
  ⟨hi, ho, Nat.le_refl _, Nat.le_refl _, fun hn => absurd hst hn⟩

end StreamStep

theorem crc32Running_streams {blk blk' : Block} (hst : blk.st = .busy) (h : crc32Running blk = some blk') :
    ∃ consumed pushed, StreamStep blk blk' consumed pushed := by
  rcases (crc32Running_cases h).2 with ⟨_, x, q, hq, rfl⟩ | ⟨_, rfl⟩
  · exact ⟨_, _, .pop hst hq rfl⟩
  · exact ⟨_, _, .still rfl rfl⟩

theorem frameRunning_streams {d : Capacity} {blk blk' : Block} (hst : blk.st = .busy)
    (h : frameRunning d blk = some blk') :
    ∃ consumed pushed, StreamStep blk blk' consumed pushed := by
  rcases (frameRunning_cases h).2 with ⟨_, _, rfl⟩ | ⟨_, _, _, rfl⟩ | ⟨_, _, _, x, q, hq, rfl⟩ | ⟨_, _, _, rfl⟩ |
    ⟨_, rfl⟩
  · exact ⟨_, _, .push rfl rfl⟩
  · exact ⟨_, _, .push rfl rfl⟩
  · exact ⟨_, _, .copy hst hq rfl⟩
  · exact ⟨_, _, .push rfl rfl⟩
  · exact ⟨_, _, .still rfl rfl⟩

theorem packRunning_streams {d : Capacity} {blk blk' : Block} (hst : blk.st = .busy)
    (h : packRunning d blk = some blk') :
    ∃ consumed pushed, StreamStep blk blk' consumed pushed := by
  rcases (packRunning_cases h).2 with ⟨_, _, _, rfl⟩ | ⟨_, _, _, _, x, q, hq, rfl⟩ | ⟨_, _, _, _, x, q, hq, rfl⟩ |
    ⟨_, rfl⟩
  · exact ⟨_, _, .push rfl rfl⟩
  · exact ⟨_, _, .copy hst hq rfl⟩
  · exact ⟨_, _, .copy hst hq rfl⟩
  · exact ⟨_, _, .still rfl rfl⟩

/-- A move of the block leaves alone what the host has taken. -/
theorem blockMove_streams {s t : State} (hm : BlockMove s t) :
    t.taken = s.taken ∧ ∃ consumed pushed, StreamStep s.block t.block consumed pushed := by
  cases hm with
  | wait | refuse | acceptCrc32 | acceptFrame | acceptPack => exact ⟨rfl, _, _, .still rfl rfl⟩
  | runCrc32 blk hst hr => exact ⟨rfl, crc32Running_streams hst hr⟩
  | runFrame blk hst hr => exact ⟨rfl, frameRunning_streams hst hr⟩
  | runPack blk hst hr => exact ⟨rfl, packRunning_streams hst hr⟩

/-- Of the host's moves but a reset, only `H-OFFER` touches `in_q`: it adds its byte at the end (R27). -/
theorem hostMove_inStream {m : HostMove} (hm : m ≠ .reset) (s : State) :
    ∃ offered, offered.length ≤ 1 ∧ (hostMove m s).block.inQ = s.block.inQ ++ offered := by
  cases m with
  | offer x => exact ⟨[x], Nat.le_refl _, rfl⟩
  | take =>
    refine ⟨[], Nat.zero_le _, ?_⟩
    cases hq : s.block.outQ with
    | nil => simp [hostMove, hostTake_of_empty hq]
    | cons x q => simp [hostMove, hostTake_eq hq]
  | reset => exact absurd rfl hm
  | issue | readStatus | readResult => exact ⟨[], Nat.zero_le _, (List.append_nil _).symm⟩

/-- Of the host's moves but a reset, only `H-TAKE` touches `out_q`: its first byte becomes the last byte taken (R28). -/
theorem hostMove_outStream {m : HostMove} (hm : m ≠ .reset) (s : State) :
    (hostMove m s).taken ++ (hostMove m s).block.outQ = s.taken ++ s.block.outQ := by
  cases m with
  | take =>
    cases hq : s.block.outQ with
    | nil => simp [hostMove, hostTake_of_empty hq, hq]
    | cons x q => simp [hostMove, hostTake_eq hq]
  | reset => exact absurd rfl hm
  | issue | offer | readStatus | readResult => rfl

end Sys2Proof.Machine

namespace Sys2Proof

open Sys2Proof.Machine

/-- Settles O47: the block only adds to `out_q`, and the host moves its first byte to the end of what it has taken. -/
theorem outStreamKeepsOrder : Obligations.OutStreamKeepsOrder := by
  intro s t h hn
  rcases step_cases h with ⟨rest, _, hb⟩ | ⟨m, rest, hs, _, rfl⟩
  · obtain ⟨htaken, _, pushed, hstep⟩ := blockMove_streams hb
    refine ⟨pushed, hstep.pushed_le, ?_⟩
    rw [htaken, hstep.outQ, List.append_assoc]
  · refine ⟨[], Nat.zero_le _, ?_⟩
    rw [hostMove_outStream (ne_reset_of_not_resetNext hs hn), List.append_nil]

/-- Settles O48: a move of the block offers nothing, and a move of the host consumes nothing. -/
theorem inStreamKeepsOrder : Obligations.InStreamKeepsOrder := by
  intro s t h hn
  rcases step_cases h with ⟨rest, _, hb⟩ | ⟨m, rest, hs, _, rfl⟩
  · obtain ⟨_, consumed, _, hstep⟩ := blockMove_streams hb
    exact ⟨consumed, [], hstep.consumed_le, (List.append_nil _).trans hstep.inQ, hstep.consumed_eq_nil⟩
  · obtain ⟨offered, hlen, hin⟩ :=
      hostMove_inStream (ne_reset_of_not_resetNext hs hn) { s with schedule := rest }
    exact ⟨[], offered, by simpa using hlen, hin.symm, fun _ => rfl⟩

end Sys2Proof
end

section
/-! SUPPORT. The bytes of a word (spec/20_memory.md R29). -/

namespace Sys2Proof

open Sys2Proof.Machine

/-- The byte `be32(v)[k]` is a digit of `v` in base 256, the most significant one first (above 3 the last, log entry 16). -/
theorem be32Byte_toNat (v : Word) (k : Nat) : (be32Byte v k).toNat = v.toNat / 2 ^ (24 - 8 * k) % 2 ^ 8 := by
  rw [be32Byte, BitVec.extractLsb'_toNat, Nat.shiftRight_eq_div_pow]

/-- Settles O33: a value below `2 ^ 32` is the sum of its four digits in base 256. -/
theorem bigEndianBytesDetermineWord : Obligations.BigEndianBytesDetermineWord := by
  intro v
  refine ⟨_, _, _, _, rfl, ?_⟩
  have hv := v.isLt
  simp only [be32Byte_toNat]
  omega

end Sys2Proof
end

section
/-! SUPPORT. The descriptor encoding (spec/30_encoding.md R41 to R43, R49): `encode` and `decode` undo each other. -/

namespace Sys2Proof

/-- A `CRC32` descriptor whose must-be-zero fields are 0 passes checks 1 to 4 of R52. -/
theorem decode_of_fieldOp_crc32 {d : Descriptor} (hop : fieldOp d = opCrc32) (hrsv : fieldRsv d = 0)
    (hfilter : fieldFilter d = 0) (hdepth : fieldDepth d = 0) :
    decode d = .ok (.crc32 (fieldA d) (fieldB d)) := by
  simp [decode, hop, hrsv, hfilter, hdepth, opCrc32, opPack]

/-- A `FRAME` descriptor whose must-be-zero fields are 0 passes checks 1 to 4 of R52. -/
theorem decode_of_fieldOp_frame {d : Descriptor} (hop : fieldOp d = opFrame) (hrsv : fieldRsv d = 0)
    (hfilter : fieldFilter d = 0) (hdepth : fieldDepth d = 0) :
    decode d = .ok (.frame (fieldA d) (fieldB d)) := by
  simp [decode, hop, hrsv, hfilter, hdepth, opCrc32, opFrame, opPack]

/-- A `PACK` descriptor passes checks 1 to 4 of R52 at every width, height and depth. -/
theorem decode_of_fieldOp_pack {d : Descriptor} (hop : fieldOp d = opPack) (hrsv : fieldRsv d = 0)
    (hfilter : fieldFilter d = 0) : decode d = .ok (.pack (fieldA d) (fieldB d) (fieldDepth d)) := by
  simp [decode, hop, hrsv, hfilter]

/-- Settles O1: the fields of a command's descriptor are its opcode, its operands and zeros (`WordShape`). -/
theorem decodeEncodeRoundTrip : Obligations.DecodeEncodeRoundTrip := by
  intro i
  cases i with
  | crc32 seed length =>
    obtain ⟨hrsv, hfilter, hop, hdepth, ha, hb⟩ := Laws.WordShape.crc32 seed length
    rw [decode_of_fieldOp_crc32 hop hrsv hfilter hdepth, ha, hb]
  | frame tag length =>
    obtain ⟨hrsv, hfilter, hop, hdepth, ha, hb⟩ := Laws.WordShape.frame tag length
    rw [decode_of_fieldOp_frame hop hrsv hfilter hdepth, ha, hb]
  | pack width height depth =>
    obtain ⟨hrsv, hfilter, hop, hdepth, ha, hb⟩ := Laws.WordShape.pack width height depth
    rw [decode_of_fieldOp_pack hop hrsv hfilter, ha, hb, hdepth]

/-- Settles O2: `d` is its six fields put together, and a field that decoding does not read into an operand is pinned. -/
theorem encodeDecodeRoundTrip : Obligations.EncodeDecodeRoundTrip := by
  intro d i h
  have hfields := descriptor_eq_fields d
  obtain ⟨hrsv, hfilter, ⟨hop, hdepth, rfl⟩ | ⟨hop, hdepth, rfl⟩ | ⟨hop, rfl⟩⟩ := decode_ok_cases h
  · rw [hop, hdepth, hfilter, hrsv] at hfields
    exact hfields.symm
  · rw [hop, hdepth, hfilter, hrsv] at hfields
    exact hfields.symm
  · rw [hop, hfilter, hrsv] at hfields
    exact hfields.symm

/-- Settles O3: the first three words are the encoder's own, and each of the others fails one check of R52. -/
theorem writtenDescriptorsDecode : Obligations.WrittenDescriptorsDecode :=
  ⟨decodeEncodeRoundTrip (.crc32 0 4), decodeEncodeRoundTrip (.frame 0x49454E44 3), decodeEncodeRoundTrip (.pack 2 3 8),
    rfl, rfl, rfl, rfl⟩

end Sys2Proof
end

section
/-! SUPPORT. The Checksum Engine (spec/40_crc32.md R58 to R61): the table-driven update is its bitwise form, and the initial
and the final XOR cancel. -/

namespace Sys2Proof

open Sys2Proof.Machine

/-- A byte put into a word has nothing above bit 7. -/
theorem zeroExtend_byte_shiftRight (x : Byte) : (x.zeroExtend 32 : Word) >>> 8 = 0#32 := by
  ext i hi
  simp

/-- Eight rounds look the low byte up in `T` and shift the other three: the rounds are linear, and `w` is its low byte XOR
a value whose low byte is 0. -/
theorem crcRounds_eight (w : Word) : crcRounds 8 w = crcTable (w.extractLsb' 0 8) ^^^ (w >>> 8) := by
  have hsplit : ∀ y : Word, crcRounds 8 w = crcRounds 8 y ^^^ crcRounds 8 (y ^^^ w) := fun y => by
    rw [← crcRounds_xor, ← BitVec.xor_assoc, BitVec.xor_self, BitVec.zero_xor]
  have hlow : ∀ i, i < 8 → ((w.extractLsb' 0 8).zeroExtend 32 ^^^ w).getLsbD i = false := fun i hi => by
    simp [hi, show i < 32 by omega]
  rw [hsplit ((w.extractLsb' 0 8).zeroExtend 32), crcRounds_of_low_zero 8 _ hlow, BitVec.ushiftRight_xor_distrib,
    zeroExtend_byte_shiftRight, BitVec.zero_xor, crcTable]

/-- Settles O28: eight rounds on `c ^ x` are `T` at its low byte XOR `c >> 8`, since `x` has nothing above bit 7. -/
theorem tableUpdateEqualsBitwise : Obligations.TableUpdateEqualsBitwise := by
  intro c x
  have hshift : (c ^^^ x.zeroExtend 32) >>> 8 = c >>> 8 := by
    rw [BitVec.ushiftRight_xor_distrib, zeroExtend_byte_shiftRight, BitVec.xor_zero]
  rw [updBitwise, crcRounds_eight, hshift, upd]

/-- The initial and the final XOR of R58 cancel. -/
@[simp] theorem xor_crcMask_xor_crcMask (w : Word) : w ^^^ crcMask ^^^ crcMask = w := by
  rw [BitVec.xor_assoc, BitVec.xor_self, BitVec.xor_zero]

/-- Settles O29: an empty fold leaves the two XORs alone. -/
theorem crcOfEmptyRangeIsSeed : Obligations.CrcOfEmptyRangeIsSeed := xor_crcMask_xor_crcMask

/-- Settles O30: the register of the second computation starts where that of the first ended. -/
theorem crcChainsThroughSeed : Obligations.CrcChainsThroughSeed := by
  intro seed u v
  simp only [crc32, xor_crcMask_xor_crcMask, crcFold_append]

end Sys2Proof
end

section
/-! SUPPORT. The CRC32 command (spec/40_crc32.md R63 to R67), one block step at a time. -/

namespace Sys2Proof

open Sys2Proof.Machine

/-- `S-CRC-BYTE` is enabled where a byte is missing and one is on IN (R65). -/
theorem crc32Running_byte {blk : Block} {x : Byte} {q : List Byte} (hop : blk.op = opCrc32)
    (hn : blk.n < blk.b.toNat) (hq : blk.inQ = x :: q) :
    crc32Running blk = some { blk with inQ := q, acc := upd blk.acc x, n := blk.n + 1 } := by
  simp [crc32Running, hop, hn, crcByte, inPop_eq_some_iff.mpr ⟨q, hq, rfl⟩]

/-- `S-CRC-DONE` is enabled where all bytes are taken (R66). -/
theorem crc32Running_done {blk : Block} (hop : blk.op = opCrc32) (hn : blk.n = blk.b.toNat) :
    crc32Running blk = some (crcDone blk) := by
  simp [crc32Running, hop, hn]

section
variable {seed length : Word} {s t : State}

theorem exec_crc32_of_idle (hst : s.block.st = .idle) :
    exec (.crc32 seed length) s = .next (takeOffer s (crc32Accept seed length s.block)) := by
  simp [exec, execCrc32, commandStep, hst]

theorem exec_crc32_of_running {blk : Block} (hst : s.block.st = .busy) (hr : crc32Running s.block = some blk) :
    exec (.crc32 seed length) s = .next (withBlock s blk) := by
  simp [exec, execCrc32, commandStep, hst, advance, hr]

/-- What `CRC32` can do: accept, one of its two steps, or nothing (R64 to R66, R117, R118). -/
theorem exec_crc32_cases (h : exec (.crc32 seed length) s = .next t) :
    (s.block.st = .idle ∧ t = takeOffer s (crc32Accept seed length s.block)) ∨
      (s.block.st = .busy ∧ ∃ blk, crc32Running s.block = some blk ∧ t = withBlock s blk) ∨
      (s.block.st ≠ .idle ∧ t = s) := by
  rcases commandStep_eq_next_iff.mp h with ⟨hst, ht⟩ | ⟨hst, hrun | ⟨_, ht⟩⟩ | ⟨hst, ht⟩
  · exact .inl ⟨hst, (Host.Outcome.next.inj ht).symm⟩
  · exact .inr (.inl ⟨hst, hrun⟩)
  · exact .inr (.inr ⟨by simp [hst], ht⟩)
  · exact .inr (.inr ⟨by simp [hst], ht⟩)

end

/-- Settles O7: the accept is `crc32Accept`. -/
theorem crc32AcceptWrites : Obligations.Crc32AcceptWrites := fun _ _ _ hst => exec_crc32_of_idle hst

/-- Settles O11: `S-CRC-BYTE` is the step that is enabled. -/
theorem crcByteStep : Obligations.CrcByteStep := fun _ _ _ _ _ hst hop hn hq =>
  exec_crc32_of_running hst (crc32Running_byte hop hn hq)

/-- Settles O12: `S-CRC-DONE` is the step that is enabled. -/
theorem crcDoneStep : Obligations.CrcDoneStep := fun _ _ _ hst hop hn =>
  exec_crc32_of_running hst (crc32Running_done hop hn)

/-- Settles O57: each of the steps `CRC32` can make is an update of the fields the statement leaves open. -/
theorem crc32LeavesRestUnchanged : Obligations.Crc32LeavesRestUnchanged := by
  intro seed length s t h
  rcases exec_crc32_cases h with ⟨hst, rfl⟩ | ⟨hst, blk, hr, rfl⟩ | ⟨hst, rfl⟩
  · exact ⟨rfl, fun _ => ⟨rfl, rfl, rfl, rfl, rfl⟩, by simp [hst], by simp [hst]⟩
  · refine ⟨rfl, by simp [hst], fun _ => ?_, by simp [hst]⟩
    rcases (crc32Running_cases hr).2 with ⟨_, x, q, hq, rfl⟩ | ⟨hn, rfl⟩
    · exact ⟨rfl, rfl, fun _ => ⟨hst, rfl, rfl⟩, .inr (by simp [hq])⟩
    · exact ⟨rfl, rfl, fun hne => absurd hn hne, .inl rfl⟩
  · exact ⟨rfl, fun hi => absurd hi hst, fun hb => ⟨rfl, rfl, fun _ => ⟨hb, rfl, rfl⟩, .inl rfl⟩, fun _ => rfl⟩

/-- The byte `S-CRC-BYTE` takes joins those taken before (R65, R67). -/
theorem CrcAt.byte {u : List Byte} {blk : Block} (h : CrcAt u blk) (hn : blk.n < blk.b.toNat) (x : Byte)
    (q : List Byte) : CrcAt (u ++ [x]) { blk with inQ := q, acc := upd blk.acc x, n := blk.n + 1 } where
  st := h.st
  op := h.op
  n := by simp [h.n]
  bound := by simpa [h.n] using hn
  acc := by rw [crcFold_snoc, ← h.acc]

/-- The queues are no part of a `CRC32`'s progress. -/
theorem CrcAt.with_queues {u : List Byte} {blk : Block} (h : CrcAt u blk) (i o : List Byte) :
    CrcAt u { blk with inQ := i, outQ := o } :=
  ⟨h.st, h.op, h.n, h.bound, h.acc⟩

/-- The result `S-CRC-DONE` delivers is the CRC of the bytes taken (R58, R66). -/
theorem CrcAt.crcDone_result {u : List Byte} {blk : Block} (h : CrcAt u blk) : (crcDone blk).result = crc32 blk.a u := by
  rw [Machine.crcDone_result, h.acc, crc32]

/-- While a `CRC32` runs, the block's move is one of its two steps, or none. -/
theorem blockMove_of_crc32 {s t : State} (hst : s.block.st = .busy) (hop : s.block.op = opCrc32) (hm : BlockMove s t) :
    t = s ∨ ∃ blk, crc32Running s.block = some blk ∧ t = withBlock s blk := by
  cases hm with
  | wait => exact .inl rfl
  | refuse _ _ hi | acceptCrc32 _ _ _ hi | acceptFrame _ _ _ hi | acceptPack _ _ _ _ hi => simp [hst] at hi
  | runCrc32 blk _ hr => exact .inr ⟨blk, hr, rfl⟩
  | runFrame _ _ hr => exact absurd (hop.symm.trans (frameRunning_cases hr).1) (by decide)
  | runPack _ _ hr => exact absurd (hop.symm.trans (packRunning_cases hr).1) (by decide)

/-- Settles O25: of the block's moves `S-CRC-BYTE` takes one byte and `S-CRC-DONE` completes; of the host's but a reset,
`H-OFFER` alone touches `in_q`, and none touches what `CrcAt` speaks of. -/
theorem crcProgressKept : Obligations.CrcProgressKept := by
  intro s t u h hs hnr
  rcases step_cases hs with ⟨rest, _, hm⟩ | ⟨m, rest, hsch, _, rfl⟩
  · rcases blockMove_of_crc32 (s := { s with schedule := rest }) h.st h.op hm with rfl | ⟨blk, hr, rfl⟩
    · exact .inl ⟨[], [], by simp, by simp, by simpa using h, rfl, rfl⟩
    · rcases (crc32Running_cases hr).2 with ⟨hn, x, q, hq, rfl⟩ | ⟨hn, rfl⟩
      · exact .inl ⟨[x], [], by simp, by simpa using hq, h.byte hn x q, rfl, rfl⟩
      · exact .inr ⟨h.n.symm.trans hn, rfl, rfl, h.crcDone_result, rfl⟩
  · have hne := ne_reset_of_not_resetNext hsch hnr
    obtain ⟨offered, hlen, hin⟩ := hostMove_inStream hne { s with schedule := rest }
    have hblk := hostMove_block m { s with schedule := rest } hne
    refine .inl ⟨[], offered, by simpa using hlen, by simp [hin], ?_, ?_, ?_⟩
    · rw [hblk, List.append_nil]
      exact h.with_queues _ _
    · rw [hblk]
    · rw [hblk]

end Sys2Proof
end

section
/-! SUPPORT. A whole command, with nothing scheduled: the block's turn is one block step of the command (R35, R112), and the
run that accepts it (spec/70_reset_and_hazards.md R139, R140). -/

namespace Sys2Proof

open Sys2Proof.Machine

theorem step_of_schedule_nil {s : State} (hs : s.schedule = []) : step s = blockTurn s := by
  simp [step, turn, hs]

theorem blockTurn_eq_exec_of_offer {s : State} {d : Descriptor} {i : Instr} (hst : s.block.st = .idle)
    (ho : s.offer = some d) (hd : decode d = .ok i) : blockTurn s = exec i s := by
  simp [blockTurn, hst, offerTurn, ho, hd]

theorem blockTurn_eq_exec_of_running {s : State} {i : Instr} (hst : s.block.st = .busy)
    (hi : runningInstr s.block = some i) : blockTurn s = exec i s := by
  simp [blockTurn, hst, busyTurn_eq_exec hi]

/-- R52 finds the descriptor of a well-formed command valid. -/
theorem refusalCode_encode {i : Instr} (h : i.WellFormed) : refusalCode (encode i) = none := by
  rw [refusalCode_eq, decodeEncodeRoundTrip]
  cases i with
  | crc32 | frame => rfl
  | pack => exact packRefusal_eq_none_iff.mpr h

/-- A run with nothing scheduled that begins with an accept accepts that one descriptor (R112, R140). -/
theorem acceptedIn_of_accept (k : Nat) {s t : State} {d : Descriptor} (hs : s.schedule = []) (hst : s.block.st = .idle)
    (ho : s.offer = some d) (hd : refusalCode d = none) (h : step s = .next t) (hts : t.schedule = [])
    (hto : t.offer = none) : acceptedIn (k + 1) s [] = [d] := by
  have hacc : acceptsNext s = some d := acceptsNext_eq_some_iff.mpr ⟨by simp [blockNext, hs], hst, ho, hd⟩
  have hrec : recordAccept s [] = [d] := by simp [recordAccept, hs, hacc]
  rw [acceptedIn, h, hrec]
  exact acceptedIn_quiet k hts hto [d]

/-- A step of a running `CRC32` with nothing scheduled. -/
theorem step_of_crc32Running {s : State} {blk : Block} (hs : s.schedule = []) (hst : s.block.st = .busy)
    (hr : crc32Running s.block = some blk) : step s = .next (withBlock s blk) := by
  rw [step_of_schedule_nil hs,
    blockTurn_eq_exec_of_running hst (runningInstr_of_crc32 (crc32Running_cases hr).1), exec_crc32_of_running hst hr]

/-- A running `CRC32` with its bytes `v` on IN takes one step a byte and one to deliver (R65, R66, R139). -/
theorem runSteps_crc32 (v rest : List Byte) {s : State} (hs : s.schedule = []) (hst : s.block.st = .busy)
    (hop : s.block.op = opCrc32) (hn : s.block.n + v.length = s.block.b.toNat) (hq : s.block.inQ = v ++ rest) :
    runSteps (v.length + 1) s = .next (withBlock s
      (crcDone { s.block with inQ := rest, acc := crcFold s.block.acc v, n := s.block.b.toNat })) := by
  induction v generalizing s with
  | nil =>
    obtain rfl : s.block.inQ = rest := hq
    rw [List.length_nil, runSteps_succ (step_of_crc32Running hs hst (crc32Running_done hop hn)), ← hn]
    rfl
  | cons x v ih =>
    have hlen : s.block.n + (v.length + 1) = s.block.b.toNat := hn
    have hbyte := crc32Running_byte hop (by omega) hq
    exact (runSteps_succ (step_of_crc32Running hs hst hbyte)).trans
      (ih hs hst hop ((Nat.succ_add_eq_add_succ ..).trans hn) rfl)

/-- Settles O22: the accept leaves a running `CRC32` that has taken nothing, and `runSteps_crc32` takes it to its end. -/
theorem crc32CommandComputesCrc : Obligations.Crc32CommandComputesCrc := by
  intro s seed length hs hst ho hlen
  have haccept : step s = .next (takeOffer s (crc32Accept seed length s.block)) := by
    rw [step_of_schedule_nil hs, blockTurn_eq_exec_of_offer hst ho (decodeEncodeRoundTrip _), exec_crc32_of_idle hst]
  have htake : (s.block.inQ.take length.toNat).length = length.toNat := List.length_take_of_le hlen
  have hrun := (runSteps_succ haccept).trans <|
    runSteps_crc32 (s.block.inQ.take length.toNat) (s.block.inQ.drop length.toNat) hs rfl rfl
      ((Nat.zero_add _).trans htake) (List.take_append_drop ..).symm
  rw [htake] at hrun
  rw [Nat.add_comm 1]
  refine ⟨?_, fun hin hout => ⟨?_, _, hrun, rfl, ?_, hout⟩⟩
  · rw [hrun, show crc32 seed (s.block.inQ.take length.toNat) ^^^ 0xFFFFFFFF =
      crcFold (seed ^^^ crcMask) (s.block.inQ.take length.toNat) from xor_crcMask_xor_crcMask _]
    rfl
  · exact acceptedIn_of_accept _ hs hst ho (refusalCode_encode trivial) haccept hs rfl
  · exact List.drop_eq_nil_of_le hin.le

end Sys2Proof
end

section
/-! SUPPORT. The Chunk Framer (spec/41_frame.md R69 to R74): the layout of a chunk. -/

namespace Sys2Proof

open Sys2Proof.Machine

/-- The bytes before the CRC field of a chunk: two words and the payload (R69). -/
theorem header_length (u v : Word) (p : List Byte) : (be32 u ++ be32 v ++ p).length = 8 + p.length := by
  simp only [List.length_append, be32_length]

/-- Settles O31: each field is the middle part of the chunk that its offsets name, and the CRC is over two of them. -/
theorem framedChunkLayout : Obligations.FramedChunkLayout := by
  intro tag p _
  have hcovered : slice (frame tag p) 4 (8 + p.length) = be32 tag ++ p := by
    rw [frame, List.append_assoc (be32 _)]
    exact slice_middle _ _ _ _ _ rfl (by simp; omega)
  refine ⟨?_, ?_, ?_, ?_, ?_⟩
  · simp [frame]
    omega
  · rfl
  · rfl
  · exact slice_middle _ _ _ _ _ rfl rfl
  · rw [hcovered]
    have hcrc := slice_middle (be32 (BitVec.ofNat 32 p.length) ++ be32 tag ++ p) (be32 (crc32 0 (be32 tag ++ p))) []
      (8 + p.length) (12 + p.length) (header_length ..).symm (by rw [header_length, be32_length]; omega)
    rwa [List.append_nil] at hcrc

/-- Settles O32: the length field is `be32(0)`, and the CRC covers the four bytes of the tag alone. -/
theorem emptyChunkIsTwelveBytes : Obligations.EmptyChunkIsTwelveBytes := by
  intro tag
  rw [frame, List.append_nil, List.append_nil]
  rfl

end Sys2Proof
end

section
/-! SUPPORT. The FRAME command (spec/41_frame.md R75 to R82), one block step at a time. -/

namespace Sys2Proof

open Sys2Proof.Machine

section
variable {d : Capacity} {blk blk' : Block}

/-- `OutPush` answers where one more byte fits (R28). -/
theorem outPush_of_fits (x : Byte) (hf : Fits d (blk.outQ.length + 1)) :
    outPush d x blk = some { blk with outQ := blk.outQ ++ [x] } :=
  outPush_eq_some_iff.mpr ⟨hasRoom_iff_fits.mpr hf, rfl⟩

/-- `S-FRM-LEN` is enabled where a length byte is to come and fits (R77). -/
theorem frameRunning_len (hop : blk.op = opFrame) (hn : blk.n < 4) (hf : Fits d (blk.outQ.length + 1)) :
    frameRunning d blk = some { blk with outQ := blk.outQ ++ [be32Byte blk.b blk.n], n := blk.n + 1 } := by
  rw [frameRunning, if_pos hop, if_pos hn, frmLen]
  exact outPush_of_fits _ hf

/-- `S-FRM-TYPE` is enabled where a type byte is to come and fits (R78). -/
theorem frameRunning_type (hop : blk.op = opFrame) (hlo : 4 ≤ blk.n) (hhi : blk.n < 8)
    (hf : Fits d (blk.outQ.length + 1)) :
    frameRunning d blk = some { blk with
      outQ := blk.outQ ++ [be32Byte blk.a (blk.n - 4)]
      acc := upd blk.acc (be32Byte blk.a (blk.n - 4))
      n := blk.n + 1 } := by
  rw [frameRunning, if_pos hop, if_neg hlo.not_gt, if_pos hhi, frmType]
  exact outPush_of_fits _ hf

/-- `S-FRM-PAY` is enabled where a payload byte is to come, is on IN and fits (R79). -/
theorem frameRunning_pay {x : Byte} {q : List Byte} (hop : blk.op = opFrame) (hlo : 8 ≤ blk.n)
    (hhi : blk.n < 8 + blk.b.toNat) (hq : blk.inQ = x :: q) (hf : Fits d (blk.outQ.length + 1)) :
    frameRunning d blk =
      some { blk with inQ := q, outQ := blk.outQ ++ [x], acc := upd blk.acc x, n := blk.n + 1 } := by
  rw [frameRunning, if_pos hop, if_neg (by omega), if_neg hlo.not_gt, if_pos hhi, frmPay,
    inPop_eq_some_iff.mpr ⟨q, hq, rfl⟩]
  exact outPush_of_fits _ hf

/-- `S-FRM-CRC` is enabled where a byte of the CRC is to come and fits (R80). -/
theorem frameRunning_crc (hop : blk.op = opFrame) (hlo : 8 + blk.b.toNat ≤ blk.n) (hhi : blk.n < 12 + blk.b.toNat)
    (hf : Fits d (blk.outQ.length + 1)) :
    frameRunning d blk = some { blk with
      outQ := blk.outQ ++ [be32Byte (blk.acc ^^^ crcMask) (blk.n - 8 - blk.b.toNat)]
      n := blk.n + 1 } := by
  rw [frameRunning, if_pos hop, if_neg (by omega), if_neg (by omega), if_neg hlo.not_gt, if_pos hhi, frmCrc]
  exact outPush_of_fits _ hf

/-- `S-FRM-DONE` is enabled where the whole chunk is pushed (R81). -/
theorem frameRunning_done (hop : blk.op = opFrame) (hn : blk.n = 12 + blk.b.toNat) :
    frameRunning d blk = some (frmDone blk) := by
  rw [frameRunning, if_pos hop, if_neg (by omega), if_neg (by omega), if_neg (by omega), if_neg hn.not_lt, if_pos hn]

/-- Of the block, a running `FRAME` writes `st`, `acc`, `n` and the queues only (R77 to R81). -/
theorem frameRunning_eq_update (h : frameRunning d blk = some blk') :
    blk' = { blk with st := blk'.st, acc := blk'.acc, n := blk'.n, inQ := blk'.inQ, outQ := blk'.outQ } := by
  rcases (frameRunning_cases h).2 with ⟨_, _, rfl⟩ | ⟨_, _, _, rfl⟩ | ⟨_, _, _, _, _, _, rfl⟩ | ⟨_, _, _, rfl⟩ |
    ⟨_, rfl⟩ <;> rfl

/-- A step that takes at most one byte from IN leaves `in_q` or its tail (R27). -/
theorem inQ_eq_or_tail_of_streamStep {consumed pushed : List Byte} (h : StreamStep blk blk' consumed pushed) :
    blk'.inQ = blk.inQ ∨ blk'.inQ = blk.inQ.tail := by
  match consumed, h.consumed_le, h.inQ with
  | [], _, hin => exact .inl hin.symm
  | [_], _, hin => exact .inr (congrArg List.tail hin).symm

end

section
variable {tag length : Word} {s t : State}

theorem exec_frame_of_idle (hst : s.block.st = .idle) :
    exec (.frame tag length) s = .next (takeOffer s (frameAccept tag length s.block)) := by
  simp [exec, execFrame, commandStep, hst]

theorem exec_frame_of_running {blk : Block} (hst : s.block.st = .busy)
    (hr : frameRunning s.outDepth s.block = some blk) : exec (.frame tag length) s = .next (withBlock s blk) := by
  simp [exec, execFrame, commandStep, hst, advance, hr]

/-- What `FRAME` can do: accept, one of its five steps, or nothing (R76 to R81, R117, R118). -/
theorem exec_frame_cases (h : exec (.frame tag length) s = .next t) :
    (s.block.st = .idle ∧ t = takeOffer s (frameAccept tag length s.block)) ∨
      (s.block.st = .busy ∧ ∃ blk, frameRunning s.outDepth s.block = some blk ∧ t = withBlock s blk) ∨
      (s.block.st ≠ .idle ∧ t = s) := by
  rcases commandStep_eq_next_iff.mp h with ⟨hst, ht⟩ | ⟨hst, hrun | ⟨_, ht⟩⟩ | ⟨hst, ht⟩
  · exact .inl ⟨hst, (Host.Outcome.next.inj ht).symm⟩
  · exact .inr (.inl ⟨hst, hrun⟩)
  · exact .inr (.inr ⟨by simp [hst], ht⟩)
  · exact .inr (.inr ⟨by simp [hst], ht⟩)

end

/-- Settles O8: the accept is `frameAccept`. -/
theorem frameAcceptWrites : Obligations.FrameAcceptWrites := fun _ _ _ hst => exec_frame_of_idle hst

/-- Settles O13: `S-FRM-LEN` is the step that is enabled. -/
theorem frameLengthByteStep : Obligations.FrameLengthByteStep := fun _ _ _ hst hop hn hf =>
  ⟨_, be32_getElem? _ _ hn, exec_frame_of_running hst (frameRunning_len hop hn hf)⟩

/-- Settles O14: `S-FRM-TYPE` is the step that is enabled. -/
theorem frameTypeByteStep : Obligations.FrameTypeByteStep := fun _ _ _ hst hop hlo hhi hf =>
  ⟨_, be32_getElem? _ _ (by omega), exec_frame_of_running hst (frameRunning_type hop hlo hhi hf)⟩

/-- Settles O15: `S-FRM-PAY` is the step that is enabled. -/
theorem framePayloadByteStep : Obligations.FramePayloadByteStep := fun _ _ _ _ _ hst hop hlo hhi hq hf =>
  exec_frame_of_running hst (frameRunning_pay hop hlo hhi hq hf)

/-- Settles O16: `S-FRM-CRC` is the step that is enabled. -/
theorem frameCrcByteStep : Obligations.FrameCrcByteStep := fun _ _ _ hst hop hlo hhi hf =>
  ⟨_, be32_getElem? _ _ (by omega), exec_frame_of_running hst (frameRunning_crc hop hlo hhi hf)⟩

/-- Settles O17: `S-FRM-DONE` is the step that is enabled. -/
theorem frameDoneStep : Obligations.FrameDoneStep := fun _ _ _ hst hop hn =>
  exec_frame_of_running hst (frameRunning_done hop hn)

/-- Settles O58: the accept is an update of the fields the statement leaves open, and so is each step of a running
`FRAME`, which takes and pushes at most one byte. -/
theorem frameLeavesRestUnchanged : Obligations.FrameLeavesRestUnchanged := by
  intro tag length s t h
  rcases exec_frame_cases h with ⟨hst, rfl⟩ | ⟨hst, blk, hr, rfl⟩ | ⟨hst, rfl⟩
  · exact ⟨rfl, rfl, rfl, rfl, fun _ => ⟨rfl, rfl, rfl⟩, by simp [hst], by simp [hst]⟩
  · obtain ⟨hrv, hresult⟩ := frameRunning_keeps_result hr
    obtain ⟨_, pushed, hstep⟩ := frameRunning_streams hst hr
    exact ⟨rfl, hrv, hresult, (frameRunning_keeps hr).cause, by simp [hst],
      fun _ => ⟨rfl, frameRunning_eq_update hr, inQ_eq_or_tail_of_streamStep hstep, pushed, hstep.pushed_le,
        hstep.outQ⟩,
      by simp [hst]⟩
  · exact ⟨rfl, rfl, rfl, rfl, fun hi => absurd hi hst,
      fun _ => ⟨rfl, rfl, .inl rfl, [], Nat.zero_le _, (List.append_nil _).symm⟩, fun _ => rfl⟩

end Sys2Proof
end

section
/-! SUPPORT. The progress of a running FRAME (spec/41_frame.md R82): the chunk as far as its payload is known, and how
each byte step adds to what was pushed. -/

namespace Sys2Proof

open Sys2Proof.Machine

/-- The chunk a running `FRAME` would push if its payload were `p`, with the length field from the latch (R69, R77). -/
def chunkSoFar (blk : Block) (p : List Byte) : List Byte :=
  be32 blk.b ++ be32 blk.a ++ p ++ be32 (crc32 0 (be32 blk.a ++ p))

section
variable {blk blk' : Block} {p o : List Byte} {x : Byte}

/-- With the whole payload it is `frame(a, p)` (R69). -/
theorem chunkSoFar_eq_frame (hp : p.length = blk.b.toNat) : chunkSoFar blk p = frame blk.a p := by
  rw [frame, hp, BitVec.ofNat_toNat, BitVec.setWidth_eq, chunkSoFar]

theorem chunkSoFar_length (blk : Block) (p : List Byte) : (chunkSoFar blk p).length = 12 + p.length := by
  rw [chunkSoFar, List.length_append, header_length, be32_length]
  omega

/-- The bytes before the CRC field do not depend on payload bytes to come. -/
theorem chunkSoFar_take (blk : Block) (p : List Byte) :
    (chunkSoFar blk p).take (8 + p.length) = be32 blk.b ++ be32 blk.a ++ p :=
  List.take_left' (header_length ..)

theorem chunkSoFar_getElem?_length {n : Nat} (hn : n < 4) : (chunkSoFar blk p)[n]? = some (be32Byte blk.b n) := by
  rw [chunkSoFar, List.append_assoc, List.append_assoc, List.getElem?_append_left hn, be32_getElem? _ _ hn]

theorem chunkSoFar_getElem?_type {n : Nat} (hlo : 4 ≤ n) (hhi : n < 8) :
    (chunkSoFar blk p)[n]? = some (be32Byte blk.a (n - 4)) := by
  have hn : n - 4 < 4 := by omega
  rw [chunkSoFar, List.append_assoc, List.append_assoc, List.getElem?_append_right hlo, be32_length,
    List.getElem?_append_left hn, be32_getElem? _ _ hn]

theorem chunkSoFar_getElem?_crc {n : Nat} (hlo : 8 + p.length ≤ n) (hhi : n < 12 + p.length) :
    (chunkSoFar blk p)[n]? = some (be32Byte (crc32 0 (be32 blk.a ++ p)) (n - 8 - p.length)) := by
  rw [chunkSoFar, List.getElem?_append_right ((header_length ..).trans_le hlo), header_length, ← Nat.sub_sub,
    be32_getElem? _ _ (by omega)]

/-- Seed 0 starts the register at the initial mask (R58, R76). -/
theorem crc32_zero (u : List Byte) : crc32 0 u = crcFold crcMask u ^^^ crcMask := by
  rw [crc32]
  exact congrArg (crcFold · u ^^^ crcMask) BitVec.zero_xor

/-- Past the type bytes `acc` has taken them and the payload (R82). -/
theorem FrameAt.acc_of_le (h : FrameAt p o blk) (hn : 8 ≤ blk.n) : blk.acc = crcFold crcMask (be32 blk.a ++ p) := by
  rw [h.acc, List.take_of_length_le (by simp; omega)]

/-- Past the payload all `b` bytes of it are taken (R82). -/
theorem FrameAt.payload_length (h : FrameAt p o blk) (hn : 8 + blk.b.toNat ≤ blk.n) : p.length = blk.b.toNat := by
  rw [h.payload, Nat.min_eq_right hn, Nat.add_sub_cancel_left]

/-- When the whole chunk is pushed it is `frame(a, p)` (R82). -/
theorem FrameAt.pushed_eq_frame (h : FrameAt p o blk) (hn : blk.n = 12 + blk.b.toNat) : o = frame blk.a p := by
  have hp : p.length = blk.b.toNat := h.payload_length (by omega)
  have ho : o = (chunkSoFar blk p).take blk.n := h.pushed
  rw [ho, List.take_of_length_le (by rw [chunkSoFar_length]; omega), chunkSoFar_eq_frame hp]

/-- A byte step outside the payload pushes the next byte of the chunk, and takes none (R77, R78, R80). -/
theorem FrameAt.push {acc : Word} (h : FrameAt p o blk) (hn : blk.n < 8 ∨ 8 + blk.b.toNat ≤ blk.n)
    (hb : blk.n < 12 + blk.b.toNat) (hx : (chunkSoFar blk p)[blk.n]? = some x)
    (hacc : acc = crcFold crcMask ((be32 blk.a).take (blk.n + 1 - 4) ++ p)) :
    FrameAt p (o ++ [x]) { blk with outQ := blk.outQ ++ [x], acc := acc, n := blk.n + 1 } where
  st := h.st
  op := h.op
  bound := hb
  payload := by
    have hp := h.payload
    dsimp only
    omega
  acc := hacc
  pushed := by
    change o ++ [x] = (chunkSoFar blk p).take (blk.n + 1)
    rw [List.take_add_one, hx, h.pushed]
    rfl

/-- `S-FRM-PAY` takes a payload byte and pushes it (R79). -/
theorem FrameAt.copy (h : FrameAt p o blk) (hlo : 8 ≤ blk.n) (hhi : blk.n < 8 + blk.b.toNat) (x : Byte)
    (q : List Byte) : FrameAt (p ++ [x]) (o ++ [x])
      { blk with inQ := q, outQ := blk.outQ ++ [x], acc := upd blk.acc x, n := blk.n + 1 } := by
  have hp : blk.n = 8 + p.length := by
    have := h.payload
    omega
  have hpx : blk.n + 1 = 8 + (p ++ [x]).length := by simp [hp, Nat.add_assoc]
  refine ⟨h.st, h.op, ?_, ?_, ?_, ?_⟩
  · dsimp only
    omega
  · dsimp only
    omega
  · rw [h.acc_of_le hlo, ← crcFold_snoc, List.take_of_length_le (by simp; omega), List.append_assoc]
  · change o ++ [x] = (chunkSoFar blk (p ++ [x])).take (blk.n + 1)
    have ho : o = (chunkSoFar blk p).take blk.n := h.pushed
    rw [ho, hpx, chunkSoFar_take, hp, chunkSoFar_take, List.append_assoc _ p]

/-- The queues are no part of a `FRAME`'s progress. -/
theorem FrameAt.with_queues (h : FrameAt p o blk) (i q : List Byte) : FrameAt p o { blk with inQ := i, outQ := q } :=
  ⟨h.st, h.op, h.bound, h.payload, h.acc, h.pushed⟩

/-- An accepted `FRAME` has taken and pushed nothing (R76). -/
theorem frameAccept_frameAt (tag length : Word) (blk : Block) : FrameAt [] [] (frameAccept tag length blk) :=
  ⟨rfl, rfl, Nat.zero_le _, rfl, rfl, rfl⟩

/-- Every byte step of a running `FRAME` adds what it takes and pushes to its progress (R77 to R80). -/
theorem FrameAt.byte {d : Capacity} (h : FrameAt p o blk) (hn : blk.n < 12 + blk.b.toNat)
    (hr : frameRunning d blk = some blk') :
    blk'.n = blk.n + 1 ∧
      ∃ consumed pushed, StreamStep blk blk' consumed pushed ∧ FrameAt (p ++ consumed) (o ++ pushed) blk' := by
  have hnil : p ++ [] = p := List.append_nil p
  have hpay := h.payload
  rcases (frameRunning_cases hr).2 with ⟨hn4, _, rfl⟩ | ⟨hlo, hhi, _, rfl⟩ | ⟨hlo, hhi, _, x, q, hq, rfl⟩ |
    ⟨hlo, hhi, _, rfl⟩ | ⟨he, _⟩
  · refine ⟨rfl, [], _, .push rfl rfl, hnil.symm ▸ h.push (.inl (by omega)) hn (chunkSoFar_getElem?_length hn4) ?_⟩
    rw [h.acc, show blk.n + 1 - 4 = blk.n - 4 by omega]
  · refine ⟨rfl, [], _, .push rfl rfl, hnil.symm ▸ h.push (.inl hhi) hn (chunkSoFar_getElem?_type hlo hhi) ?_⟩
    obtain rfl : p = [] := List.eq_nil_of_length_eq_zero (by omega)
    rw [h.acc, List.append_nil, List.append_nil, ← crcFold_snoc, Nat.sub_add_comm hlo, List.take_add_one,
      be32_getElem? _ _ (by omega)]
    rfl
  · exact ⟨rfl, [x], [x], .copy h.st hq rfl, h.copy hlo hhi x q⟩
  · have hp : p.length = blk.b.toNat := h.payload_length hlo
    have hacc := h.acc_of_le (by omega)
    refine ⟨rfl, [], _, .push rfl rfl, hnil.symm ▸ h.push (.inr hlo) hn ?_ ?_⟩
    · rw [chunkSoFar_getElem?_crc (by omega) (by omega), crc32_zero, ← hacc, hp]
    · rw [hacc, List.take_of_length_le (by simp; omega)]
  · exact absurd he hn.ne

end

/-- While a `FRAME` runs, the block's move is one of its five steps, or none. -/
theorem blockMove_of_frame {s t : State} (hst : s.block.st = .busy) (hop : s.block.op = opFrame) (hm : BlockMove s t) :
    t = s ∨ ∃ blk, frameRunning s.outDepth s.block = some blk ∧ t = withBlock s blk := by
  cases hm with
  | wait => exact .inl rfl
  | refuse _ _ hi | acceptCrc32 _ _ _ hi | acceptFrame _ _ _ hi | acceptPack _ _ _ _ hi => simp [hst] at hi
  | runFrame blk _ hr => exact .inr ⟨blk, hr, rfl⟩
  | runCrc32 _ _ hr => exact absurd (hop.symm.trans (crc32Running_cases hr).1) (by decide)
  | runPack _ _ hr => exact absurd (hop.symm.trans (packRunning_cases hr).1) (by decide)

/-- Settles O26: of the block's moves the byte steps add to the progress and `S-FRM-DONE` completes; the host's moves
but a reset touch the queues alone. -/
theorem frameProgressKept : Obligations.FrameProgressKept := by
  intro s t p o h hs hnr
  rcases step_cases hs with ⟨rest, _, hm⟩ | ⟨m, rest, hsch, _, rfl⟩
  · rcases blockMove_of_frame (s := { s with schedule := rest }) h.st h.op hm with rfl | ⟨blk, hr, rfl⟩
    · exact .inl ⟨[], [], [], by simp, by simp, by simp, by simp, by simpa using h, rfl, rfl⟩
    · have hr : frameRunning s.outDepth s.block = some blk := hr
      rcases h.bound.lt_or_eq with hn | hn
      · obtain ⟨_, consumed, pushed, hstep, hat⟩ := h.byte hn hr
        have hkeep := frameRunning_keeps hr
        exact .inl ⟨consumed, [], pushed, hstep.consumed_le, hstep.pushed_le, (List.append_nil _).trans hstep.inQ,
          by simp [hstep.outQ], hat, hkeep.a, hkeep.b⟩
      · obtain rfl : frmDone s.block = blk := Option.some.inj ((frameRunning_done h.op hn).symm.trans hr)
        exact .inr ⟨h.payload_length (by omega), rfl, h.pushed_eq_frame hn, rfl, rfl⟩
  · have hne := ne_reset_of_not_resetNext hsch hnr
    obtain ⟨offered, hlen, hin⟩ := hostMove_inStream hne { s with schedule := rest }
    have hout := hostMove_outStream hne { s with schedule := rest }
    have hblk := hostMove_block m { s with schedule := rest } hne
    refine .inl ⟨[], offered, [], by simpa using hlen, by simp, by simp [hin], by simp [hout], ?_, ?_, ?_⟩
    · rw [hblk, List.append_nil, List.append_nil]
      exact h.with_queues _ _
    · rw [hblk]
    · rw [hblk]

end Sys2Proof
end

section
/-! SUPPORT. A whole FRAME, with nothing scheduled (spec/41_frame.md R82, spec/70_reset_and_hazards.md R139). -/

namespace Sys2Proof

open Sys2Proof.Machine

/-- A running `FRAME` has an enabled byte step where the byte fits OUT and, if it is one of the payload, is on IN. -/
theorem exists_frameRunning {d : Capacity} {blk : Block} (hop : blk.op = opFrame) (hn : blk.n < 12 + blk.b.toNat)
    (hq : 8 ≤ blk.n → blk.n < 8 + blk.b.toNat → blk.inQ ≠ []) (hf : Fits d (blk.outQ.length + 1)) :
    ∃ blk', frameRunning d blk = some blk' := by
  rcases Nat.lt_or_ge blk.n 4 with h4 | h4
  · exact ⟨_, frameRunning_len hop h4 hf⟩
  rcases Nat.lt_or_ge blk.n 8 with h8 | h8
  · exact ⟨_, frameRunning_type hop h4 h8 hf⟩
  rcases Nat.lt_or_ge blk.n (8 + blk.b.toNat) with hp | hp
  · obtain ⟨x, q, hin⟩ := List.exists_cons_of_ne_nil (hq h8 hp)
    exact ⟨_, frameRunning_pay hop h8 hp hin hf⟩
  · exact ⟨_, frameRunning_crc hop hp hn hf⟩

/-- A step of a running `FRAME` with nothing scheduled. -/
theorem step_of_frameRunning {s : State} {blk : Block} (hs : s.schedule = []) (hst : s.block.st = .busy)
    (hr : frameRunning s.outDepth s.block = some blk) : step s = .next (withBlock s blk) := by
  rw [step_of_schedule_nil hs,
    blockTurn_eq_exec_of_running hst (runningInstr_of_frame (frameRunning_cases hr).1), exec_frame_of_running hst hr]

/-- The block after a `FRAME` whose payload was `p`, `rest` being what stays on IN and `queued` what stood on OUT
before. -/
def frameEnd (blk : Block) (p rest queued : List Byte) : Block :=
  { blk with
    st := .idle
    acc := crc32 0 (be32 blk.a ++ p) ^^^ crcMask
    n := 12 + blk.b.toNat
    inQ := rest
    outQ := queued ++ frame blk.a p }

/-- `S-FRM-DONE` on a `FRAME` that has pushed its whole chunk (R81, R82). -/
theorem FrameAt.frmDone_eq {p o rest queued : List Byte} {blk : Block} (h : FrameAt p o blk)
    (hn : blk.n = 12 + blk.b.toNat) (hin : blk.inQ = rest) (hout : blk.outQ = queued ++ o) :
    frmDone blk = frameEnd blk p rest queued := by
  rw [frameEnd, crc32_zero, xor_crcMask_xor_crcMask, ← h.acc_of_le (by omega), ← hn, ← hin,
    ← h.pushed_eq_frame hn, ← hout]
  rfl

/-- Every step of the command leads to the same end. -/
theorem frameEnd_of_frameRunning {d : Capacity} {blk blk' : Block} (h : frameRunning d blk = some blk')
    (p rest queued : List Byte) : frameEnd blk' p rest queued = frameEnd blk p rest queued := by
  rw [frameRunning_eq_update h]
  rfl

/-- With the rest `v` of its payload on IN and room for a byte on OUT, a running `FRAME` that has a byte to push makes a
byte step, and what that step takes is the beginning of `v` (R82). -/
theorem FrameAt.exists_byte {d : Capacity} {blk : Block} {p o v rest : List Byte} (h : FrameAt p o blk)
    (hn : blk.n < 12 + blk.b.toNat) (hv : p.length + v.length = blk.b.toNat) (hin : blk.inQ = v ++ rest)
    (hf : Fits d (blk.outQ.length + 1)) :
    ∃ blk' consumed v' pushed, frameRunning d blk = some blk' ∧ blk'.n = blk.n + 1 ∧ v = consumed ++ v' ∧
      blk'.inQ = v' ++ rest ∧ blk'.outQ = blk.outQ ++ pushed ∧ pushed.length ≤ 1 ∧
      FrameAt (p ++ consumed) (o ++ pushed) blk' := by
  have hwant : 8 ≤ blk.n → blk.n < 8 + blk.b.toNat → blk.inQ ≠ [] := fun hlo hhi hnil => by
    have hpay := h.payload
    obtain ⟨rfl, -⟩ := List.append_eq_nil_iff.mp (hin.symm.trans hnil)
    rw [List.length_nil] at hv
    omega
  obtain ⟨blk', hr⟩ := exists_frameRunning h.op hn hwant hf
  obtain ⟨hn', consumed, pushed, hstep, hat⟩ := h.byte hn hr
  have hle : consumed.length ≤ v.length := by
    have hpay := hat.payload
    rw [List.length_append, (frameRunning_keeps hr).b] at hpay
    omega
  have hsplit : consumed ++ blk'.inQ = v ++ rest := hstep.inQ.symm.trans hin
  obtain ⟨v', rfl, hin'⟩ : ∃ v', v = consumed ++ v' ∧ blk'.inQ = v' ++ rest := by
    rcases List.append_eq_append_iff.mp hsplit with hv' | ⟨c, rfl, rfl⟩
    · exact hv'
    · obtain rfl : c = [] := List.eq_nil_of_length_eq_zero (by rw [List.length_append] at hle; omega)
      exact ⟨[], by simp, rfl⟩
  exact ⟨blk', consumed, v', pushed, hr, hn', rfl, hin', hstep.outQ, hstep.pushed_le, hat⟩

/-- A running `FRAME` with the rest `v` of its payload on IN and room for the `k` bytes to come takes one step a byte
and one to complete (R82, R139). -/
theorem runSteps_frame (k : Nat) {s : State} {p o v rest queued : List Byte} (h : FrameAt p o s.block)
    (hs : s.schedule = []) (hk : s.block.n + k = 12 + s.block.b.toNat) (hv : p.length + v.length = s.block.b.toNat)
    (hin : s.block.inQ = v ++ rest) (hout : s.block.outQ = queued ++ o)
    (hf : Fits s.outDepth (s.block.outQ.length + k)) :
    runSteps (k + 1) s = .next (withBlock s (frameEnd s.block (p ++ v) rest queued)) := by
  induction k generalizing s p o v with
  | zero =>
    have hp : p.length = s.block.b.toNat := h.payload_length (by omega)
    obtain rfl : v = [] := List.eq_nil_of_length_eq_zero (by omega)
    rw [runSteps_succ (step_of_frameRunning hs h.st (frameRunning_done h.op hk)), h.frmDone_eq hk hin hout,
      List.append_nil]
    rfl
  | succ k ih =>
    obtain ⟨blk, consumed, v', pushed, hr, hn, rfl, hin', hout', hle, hat⟩ :=
      h.exists_byte (by omega) hv hin (fits_mono hf (by omega))
    have hb : blk.b = s.block.b := (frameRunning_keeps hr).b
    have hk' : blk.n + k = 12 + blk.b.toNat := by rw [hn, hb]; omega
    have hv' : (p ++ consumed).length + v'.length = blk.b.toNat := by
      rw [hb, ← hv, List.length_append, List.length_append, Nat.add_assoc]
    have hqueued : blk.outQ = queued ++ (o ++ pushed) := by rw [hout', hout, List.append_assoc]
    have hf' : Fits s.outDepth (blk.outQ.length + k) :=
      fits_mono hf (by rw [hout', List.length_append]; omega)
    rw [runSteps_succ (step_of_frameRunning hs h.st hr),
      ih (s := withBlock s blk) hat hs hk' hv' hin' hqueued hf', List.append_assoc]
    exact congrArg (fun b => Host.Outcome.next (withBlock s b)) (frameEnd_of_frameRunning hr ..)

/-- Settles O23: the accept leaves a running `FRAME` that has taken and pushed nothing, and `runSteps_frame` takes it to
its end. -/
theorem frameCommandEmitsChunk : Obligations.FrameCommandEmitsChunk := by
  intro s tag length hs hst ho hlen hf
  have haccept : step s = .next (takeOffer s (frameAccept tag length s.block)) := by
    rw [step_of_schedule_nil hs, blockTurn_eq_exec_of_offer hst ho (decodeEncodeRoundTrip _), exec_frame_of_idle hst]
  have htake : (s.block.inQ.take length.toNat).length = length.toNat := List.length_take_of_le hlen
  have hrun := runSteps_frame (12 + length.toNat) (s := takeOffer s (frameAccept tag length s.block))
    (frameAccept_frameAt tag length s.block) hs (Nat.zero_add _) ((Nat.zero_add _).trans htake)
    (List.take_append_drop length.toNat s.block.inQ).symm (List.append_nil _).symm
    (by rw [Nat.add_comm 12]; exact hf)
  rw [show 1 + 12 + length.toNat + 1 = 12 + length.toNat + 1 + 1 by omega, runSteps_succ haccept, hrun]
  rfl

end Sys2Proof
end

section
/-! SUPPORT. The rows of `pack` (spec/42_pack.md R84 to R90): where a row stands in the output, and what it depends on. -/

namespace Sys2Proof

open Sys2Proof.Machine

/-- A range depends on the elements up to its end only. -/
theorem slice_append_of_le {s : List Byte} {hi : Nat} (more : List Byte) (lo : Nat) (h : hi ≤ s.length) :
    slice (s ++ more) lo hi = slice s lo hi := by
  rw [slice, slice, ← List.drop_take, ← List.drop_take, List.take_append_of_le_length h]

/-- A range without its first element. -/
theorem slice_succ (s : List Byte) (lo hi : Nat) : slice s (lo + 1) hi = (slice s lo hi).tail := by
  rw [slice, slice, ← List.drop_take, ← List.drop_take, List.tail_drop]

/-- Two adjacent ranges, the first of which begins the sequence. -/
theorem take_append_slice (s : List Byte) {lo hi : Nat} (h : lo ≤ hi) : s.take lo ++ slice s lo hi = s.take hi := by
  rw [slice, ← List.take_add, Nat.add_sub_cancel' h]

theorem row_end_le {i h bw : Nat} {px : List Byte} (hl : h * bw ≤ px.length) (hi : i < h) :
    (i + 1) * bw ≤ px.length :=
  (Nat.mul_le_mul_right bw hi).trans hl

section
variable {px : List Byte} {w h d i : Nat}

theorem pack_length (hl : h * byteWidth w d ≤ px.length) : (pack px w h d).length = rowStride w d * h := by
  induction h with
  | zero => rfl
  | succ h ih =>
    rw [pack_succ, List.length_append, ih ((Nat.mul_le_mul_right _ (Nat.le_succ h)).trans hl),
      packRow_length hl (Nat.lt_succ_self h)]
    rfl

/-- Fewer rows are the beginning of more rows (R87). -/
theorem pack_prefix (px : List Byte) (w d : Nat) {h k : Nat} (hk : h ≤ k) : pack px w h d <+: pack px w k d := by
  induction k, hk using Nat.le_induction with
  | base => exact List.prefix_rfl
  | succ k _ ih => exact ih.trans (pack_succ px w k d ▸ List.prefix_append ..)

/-- Row `i` stands at offset `i × rowStride` of the output (R85, R87). -/
theorem slice_pack (hl : h * byteWidth w d ≤ px.length) (hi : i < h) :
    slice (pack px w h d) (i * rowStride w d) ((i + 1) * rowStride w d) = packRow px (byteWidth w d) i := by
  obtain ⟨later, hlater⟩ := pack_prefix px w d (Nat.succ_le_of_lt hi)
  have hbefore : (pack px w i d).length = rowStride w d * i :=
    pack_length ((Nat.mul_le_mul_right _ hi.le).trans hl)
  rw [← hlater, pack_succ]
  apply slice_middle
  · rw [hbefore, Nat.mul_comm]
  · rw [hbefore, packRow_length hl hi, Nat.succ_mul, Nat.mul_comm]
    rfl

/-- The bytes of row `i` in the output. -/
theorem pack_getElem?_row (hl : h * byteWidth w d ≤ px.length) (hi : i < h) {k : Nat} (hk : k < rowStride w d) :
    (pack px w h d)[i * rowStride w d + k]? = (packRow px (byteWidth w d) i)[k]? := by
  rw [← slice_pack hl hi, slice_getElem? _ _ _ _ (by rwa [Nat.succ_mul, Nat.add_sub_cancel_left])]

/-- The ranges of the rows, put together, are the pixel bytes `pack` reads (R87, R89). -/
theorem flatMap_slice_rows (px : List Byte) (bw h : Nat) :
    (List.range h).flatMap (fun i => slice px (i * bw) ((i + 1) * bw)) = px.take (h * bw) := by
  induction h with
  | zero => simp
  | succ h ih =>
    rw [List.range_succ, List.flatMap_append, ih, List.flatMap_singleton]
    exact take_append_slice px (Nat.mul_le_mul_right bw (Nat.le_succ h))

/-- `pack` reads the first `h × bw` pixel bytes only (R89). -/
theorem pack_append (more : List Byte) (hl : h * byteWidth w d ≤ px.length) :
    pack (px ++ more) w h d = pack px w h d := by
  refine List.flatMap_congr fun i hi => ?_
  rw [packRow, slice_append_of_le more _ (row_end_le hl (List.mem_range.mp hi)), packRow]

end

/-- Settles O34: a row is its filter byte followed by its range of the pixels. -/
theorem packedRowsLayout : Obligations.PackedRowsLayout := by
  intro px w h d hl
  refine ⟨pack_length hl, fun i hi => ⟨pack_getElem?_row hl hi (Nat.succ_pos _), fun j hj => ?_⟩⟩
  have hwidth : j < (i + 1) * byteWidth w d - i * byteWidth w d := by rwa [Nat.succ_mul, Nat.add_sub_cancel_left]
  rw [Nat.add_assoc, Nat.add_comm 1, pack_getElem?_row hl hi (Nat.succ_lt_succ hj), packRow, List.getElem?_cons_succ,
    slice_getElem? _ _ _ _ hwidth]

/-- Settles O35: a row without its filter byte is its range of the pixels, and the ranges are adjacent. -/
theorem packIsInvertible : Obligations.PackIsInvertible := by
  intro px w h d hl
  rw [← flatMap_slice_rows]
  refine List.flatMap_congr fun i hi => ?_
  rw [slice_succ, slice_pack hl (List.mem_range.mp hi), packRow, List.tail_cons]

/-- Settles O36: every row's range ends before the surplus. -/
theorem packIgnoresSurplusPixels : Obligations.PackIgnoresSurplusPixels := fun _ more _ _ _ hl => pack_append more hl

/-- A legal depth is at most 16 (R46). -/
theorem legalDepth_toNat_le {d : Byte} (hd : d ∈ legalDepths) : d.toNat ≤ 16 := by
  simp only [legalDepths, List.mem_cons, List.not_mem_nil, or_false] at hd
  rcases hd with rfl | rfl | rfl | rfl | rfl <;> decide

/-- Settles O37: a row has at least one byte and at most two bytes a pixel, and the width and the height are uint32. -/
theorem byteWidthBounds : Obligations.ByteWidthBounds := by
  rintro width height depth ⟨hdepth, hwidth, _⟩
  have hw := width.isLt
  have hh := height.isLt
  have hbits : width.toNat * depth.toNat ≤ (2 ^ 32 - 1) * 16 :=
    Nat.mul_le_mul (by omega) (legalDepth_toNat_le hdepth)
  have hpos : 1 ≤ byteWidth width.toNat depth.toNat := byteWidth_pos hwidth hdepth
  have hle : byteWidth width.toNat depth.toNat ≤ 2 ^ 33 - 2 := (byteWidth_le hdepth).trans (by omega)
  have hproduct {m : Nat} (hm : m ≤ 2 ^ 33 - 1) : m * height.toNat < 2 ^ 65 :=
    (Nat.mul_le_mul hm (Nat.le_pred_of_lt hh)).trans_lt (by decide)
  refine ⟨hbits, hpos, hle, Nat.succ_le_succ hpos, Nat.succ_le_succ hle, hproduct (by omega),
    hproduct (Nat.succ_le_succ hle), ?_, ?_, ?_, ?_, ?_⟩
  all_goals
    rintro rfl
    simp only [byteWidth, BitVec.ofNat_eq_ofNat, BitVec.toNat_ofNat]
    omega

end Sys2Proof
end

section
/-! SUPPORT. The PACK command (spec/42_pack.md R92 to R96), one block step at a time. -/

namespace Sys2Proof

open Sys2Proof.Machine

section
variable {d : Capacity} {blk blk' : Block}

/-- `S-PCK-FILT` is enabled where a row is to begin and its filter byte fits (R94). -/
theorem packRunning_filt (hop : blk.op = opPack) (hr : blk.row < blk.b.toNat) (hc : blk.col = 0)
    (hf : Fits d (blk.outQ.length + 1)) :
    packRunning d blk = some { blk with outQ := blk.outQ ++ [blk.filter], col := 1 } := by
  rw [packRunning, if_pos hop, if_pos hr, if_pos hc, pckFilt]
  exact outPush_of_fits _ hf

/-- The position after a pixel byte, element by element (R95). -/
theorem pckNext_eq (blk : Block) : pckNext blk = { blk with
    row := if blk.col = latchedByteWidth blk then blk.row + 1 else blk.row
    col := if blk.col = latchedByteWidth blk then 0 else blk.col + 1 } := by
  unfold pckNext
  split <;> rfl

/-- `S-PCK-DATA` is enabled where a pixel byte is to come, is on IN and fits (R95). -/
theorem packRunning_data {x : Byte} {q : List Byte} (hop : blk.op = opPack) (hr : blk.row < blk.b.toNat)
    (hlo : 1 ≤ blk.col) (hhi : blk.col ≤ latchedByteWidth blk) (hq : blk.inQ = x :: q)
    (hf : Fits d (blk.outQ.length + 1)) :
    packRunning d blk = some { blk with
      inQ := q
      outQ := blk.outQ ++ [x]
      row := if blk.col = latchedByteWidth blk then blk.row + 1 else blk.row
      col := if blk.col = latchedByteWidth blk then 0 else blk.col + 1 } := by
  rw [packRunning, if_pos hop, if_pos hr, if_neg (Nat.ne_of_gt hlo), if_pos hhi, pckData,
    inPop_eq_some_iff.mpr ⟨q, hq, rfl⟩]
  dsimp only
  rw [pckNext_eq]
  exact outPush_of_fits _ hf

/-- `S-PCK-DONE` is enabled where all the rows are pushed (R96). -/
theorem packRunning_done (hop : blk.op = opPack) (hr : blk.row = blk.b.toNat) :
    packRunning d blk = some (pckDone blk) := by
  rw [packRunning, if_pos hop, if_neg hr.not_lt, if_pos hr]

/-- Of the block, a running `PACK` writes `st`, the position and the queues only (R94 to R96). -/
theorem packRunning_eq_update (h : packRunning d blk = some blk') :
    blk' = { blk with st := blk'.st, row := blk'.row, col := blk'.col, inQ := blk'.inQ, outQ := blk'.outQ } := by
  rcases (packRunning_cases h).2 with ⟨_, _, _, rfl⟩ | ⟨_, _, _, _, _, _, _, rfl⟩ | ⟨_, _, _, _, _, _, _, rfl⟩ |
    ⟨_, rfl⟩ <;> rfl

end

section
variable {width height : Word} {depth : Byte} {s t : State}

theorem exec_pack_of_idle (hst : s.block.st = .idle) (hw : (Instr.pack width height depth).WellFormed) :
    exec (.pack width height depth) s = .next (takeOffer s (packAccept width height depth s.block)) := by
  simp only [exec, execPack, commandStep, hst, packOffer, packRefusal_eq_none_iff.mpr hw]

theorem exec_pack_of_running {blk : Block} (hst : s.block.st = .busy)
    (hr : packRunning s.outDepth s.block = some blk) :
    exec (.pack width height depth) s = .next (withBlock s blk) := by
  simp only [exec, execPack, commandStep, hst, advance, hr]

/-- What offering `PACK` can do: a fault, if checks 5 and 6 of R52 refuse the operands, or the accept. -/
theorem packOffer_cases (h : packOffer width height depth s = .next t) :
    (¬ (Instr.pack width height depth).WellFormed ∧ ∃ c, t = takeOffer s (faultEntry c s.block)) ∨
      t = takeOffer s (packAccept width height depth s.block) := by
  unfold packOffer at h
  split at h
  · next c hc =>
    refine .inl ⟨fun hw => ?_, c, (Host.Outcome.next.inj h).symm⟩
    simp [packRefusal_eq_none_iff.mpr hw] at hc
  · exact .inr (Host.Outcome.next.inj h).symm

/-- What `PACK` can do: a fault or the accept, one of its three steps, or nothing (R93 to R96, R114, R117, R118). -/
theorem exec_pack_cases (h : exec (.pack width height depth) s = .next t) :
    (s.block.st = .idle ∧ ¬ (Instr.pack width height depth).WellFormed ∧
        ∃ c, t = takeOffer s (faultEntry c s.block)) ∨
      (s.block.st = .idle ∧ t = takeOffer s (packAccept width height depth s.block)) ∨
      (s.block.st = .busy ∧ ∃ blk, packRunning s.outDepth s.block = some blk ∧ t = withBlock s blk) ∨
      (s.block.st ≠ .idle ∧ t = s) := by
  rcases commandStep_eq_next_iff.mp h with ⟨hst, ho⟩ | ⟨hst, hrun | ⟨_, ht⟩⟩ | ⟨hst, ht⟩
  · exact (packOffer_cases ho).imp (.intro hst) (.inl ⟨hst, ·⟩)
  · exact .inr (.inr (.inl ⟨hst, hrun⟩))
  · exact .inr (.inr (.inr ⟨by simp [hst], ht⟩))
  · exact .inr (.inr (.inr ⟨by simp [hst], ht⟩))

end

/-- Settles O9: the accept is `packAccept`. -/
theorem packAcceptWrites : Obligations.PackAcceptWrites := fun _ _ _ _ hst hw => exec_pack_of_idle hst hw

/-- Settles O18: `S-PCK-FILT` is the step that is enabled. -/
theorem packFilterByteStep : Obligations.PackFilterByteStep := fun _ _ _ _ hst hop hr hc hf =>
  exec_pack_of_running hst (packRunning_filt hop hr hc hf)

/-- Settles O19: `S-PCK-DATA` is the step that is enabled. -/
theorem packDataByteStep : Obligations.PackDataByteStep := fun _ _ _ _ _ _ hst hop hr hlo hhi hq hf =>
  exec_pack_of_running hst (packRunning_data hop hr hlo hhi hq hf)

/-- Settles O20: `S-PCK-DONE` is the step that is enabled. -/
theorem packDoneStep : Obligations.PackDoneStep := fun _ _ _ _ hst hop hr =>
  exec_pack_of_running hst (packRunning_done hop hr)

/-- Settles O59: the fault and the accept are updates of the fields the statement leaves open, and so is each step of a
running `PACK`, which takes and pushes at most one byte. -/
theorem packLeavesRestUnchanged : Obligations.PackLeavesRestUnchanged := by
  intro width height depth s t h
  rcases exec_pack_cases h with ⟨hst, hw, c, rfl⟩ | ⟨hst, rfl⟩ | ⟨hst, blk, hr, rfl⟩ | ⟨hst, rfl⟩
  · exact ⟨rfl, rfl, rfl, rfl, fun hor => absurd hst (hor.resolve_right hw), fun _ => ⟨rfl, rfl, rfl⟩, by simp [hst],
      by simp [hst]⟩
  · exact ⟨rfl, rfl, rfl, rfl, fun _ => rfl, fun _ => ⟨rfl, rfl, rfl⟩, by simp [hst], by simp [hst]⟩
  · obtain ⟨hrv, hresult⟩ := packRunning_keeps_result hr
    have hupdate := packRunning_eq_update hr
    have hacc : blk.acc = s.block.acc := by rw [hupdate]
    obtain ⟨_, pushed, hstep⟩ := packRunning_streams hst hr
    exact ⟨rfl, hrv, hresult, hacc, fun _ => (packRunning_keeps hr).cause, by simp [hst],
      fun _ => ⟨rfl, hupdate, inQ_eq_or_tail_of_streamStep hstep, pushed, hstep.pushed_le, hstep.outQ⟩, by simp [hst]⟩
  · exact ⟨rfl, rfl, rfl, rfl, fun _ => rfl, fun hi => absurd hi hst,
      fun _ => ⟨rfl, rfl, .inl rfl, [], Nat.zero_le _, (List.append_nil _).symm⟩, fun _ => rfl⟩

end Sys2Proof
end

section
/-! SUPPORT. The progress of a running PACK (spec/42_pack.md R97): the rows as far as their pixels are known, and how each
byte step adds to what was pushed. -/

namespace Sys2Proof

open Sys2Proof.Machine

/-- `row` whole rows, then the filter byte and what there is of the pixels of the row begun (R87, R97). -/
def rowsSoFar (px : List Byte) (w row d : Nat) : List Byte :=
  pack px w row d ++ filterNone :: px.drop (row * byteWidth w d)

section
variable {px : List Byte} {w row d : Nat}

/-- A row just begun is its filter byte. -/
theorem rowsSoFar_of_begin (h : px.length = row * byteWidth w d) :
    rowsSoFar px w row d = pack px w row d ++ [filterNone] := by
  rw [rowsSoFar, List.drop_of_length_le h.le]

/-- A pixel byte more, in the row begun. -/
theorem rowsSoFar_snoc (h : row * byteWidth w d ≤ px.length) (x : Byte) :
    rowsSoFar (px ++ [x]) w row d = rowsSoFar px w row d ++ [x] := by
  rw [rowsSoFar, pack_append _ h, List.drop_append_of_le_length h, rowsSoFar, List.append_assoc, List.cons_append]

/-- With its last pixel byte the row begun is a whole row. -/
theorem rowsSoFar_of_end (h : px.length = (row + 1) * byteWidth w d) : rowsSoFar px w row d = pack px w (row + 1) d := by
  rw [pack_succ, packRow, slice, ← List.drop_take, ← h, List.take_length, rowsSoFar]

end

section
variable {blk blk' : Block} {px o : List Byte}

/-- A legal row has a byte to come once it is begun (R86). -/
theorem PackRunningInv.width_pos (h : PackRunningInv blk) : 1 ≤ latchedByteWidth blk := by
  obtain ⟨hdepth, hwidth, _⟩ := h.legal
  exact byteWidth_pos hwidth hdepth

/-- While a row is to come, a pixel byte is too (R97). -/
theorem PackAt.pixels_lt (h : PackAt px o blk) (hr : blk.row < blk.b.toNat) :
    px.length < latchedByteWidth blk * blk.b.toNat := by
  have hwidth := h.inv.width_pos
  have hcol := h.inv.col
  calc px.length = blk.row * latchedByteWidth blk + (blk.col - 1) := h.pixels
    _ < (blk.row + 1) * latchedByteWidth blk := by rw [Nat.succ_mul]; omega
    _ ≤ blk.b.toNat * latchedByteWidth blk := Nat.mul_le_mul_right _ hr
    _ = latchedByteWidth blk * blk.b.toNat := Nat.mul_comm ..

/-- After the last row all the pixel bytes are taken (R97). -/
theorem PackAt.pixels_eq (h : PackAt px o blk) (hr : blk.row = blk.b.toNat) :
    px.length = latchedByteWidth blk * blk.b.toNat := by
  rw [h.pixels, h.inv.last hr, hr, Nat.mul_comm]
  rfl

theorem PackAt.pixels_le (h : PackAt px o blk) : px.length ≤ latchedByteWidth blk * blk.b.toNat :=
  h.inv.row.lt_or_eq.elim (fun hr => (h.pixels_lt hr).le) fun hr => (h.pixels_eq hr).le

theorem PackAt.pushed_of_begin (h : PackAt px o blk) (hc : blk.col = 0) :
    o = pack px blk.a.toNat blk.row blk.depth.toNat := by
  rw [h.pushed, if_pos hc, List.append_nil]

theorem PackAt.pushed_of_begun (h : PackAt px o blk) (hc : 1 ≤ blk.col) :
    o = rowsSoFar px blk.a.toNat blk.row blk.depth.toNat := by
  rw [h.pushed, if_neg (Nat.ne_of_gt hc)]
  rfl

/-- When all the rows are pushed they are `pack(px, a, b, depth)` (R97). -/
theorem PackAt.pushed_eq_pack (h : PackAt px o blk) (hr : blk.row = blk.b.toNat) :
    o = pack px blk.a.toNat blk.b.toNat blk.depth.toNat := by
  rw [h.pushed_of_begin (h.inv.last hr), hr]

/-- `S-PCK-FILT` pushes the filter byte of the next row (R94). -/
theorem PackAt.filt (h : PackAt px o blk) (hc : blk.col = 0)
    (hinv : PackRunningInv { blk with outQ := blk.outQ ++ [blk.filter], col := 1 }) :
    PackAt px (o ++ [blk.filter]) { blk with outQ := blk.outQ ++ [blk.filter], col := 1 } := by
  have hpx : px.length = blk.row * latchedByteWidth blk := by rw [h.pixels, hc]; rfl
  refine ⟨h.st, hinv, hpx, ?_⟩
  change _ = rowsSoFar px blk.a.toNat blk.row blk.depth.toNat
  rw [rowsSoFar_of_begin hpx, h.pushed_of_begin hc, h.inv.filter]
  rfl

/-- `S-PCK-DATA` takes a pixel byte and pushes it, within a row (R95). -/
theorem PackAt.copy (h : PackAt px o blk) (hc : 1 ≤ blk.col) {x : Byte} {q : List Byte}
    (hinv : PackRunningInv { blk with inQ := q, outQ := blk.outQ ++ [x], col := blk.col + 1 }) :
    PackAt (px ++ [x]) (o ++ [x]) { blk with inQ := q, outQ := blk.outQ ++ [x], col := blk.col + 1 } := by
  refine ⟨h.st, hinv, ?_, ?_⟩
  · rw [List.length_append, h.pixels, Nat.add_assoc, List.length_singleton, Nat.sub_add_cancel hc]
    rfl
  · change _ = rowsSoFar (px ++ [x]) blk.a.toNat blk.row blk.depth.toNat
    rw [rowsSoFar_snoc (h.pixels ▸ Nat.le_add_right ..), h.pushed_of_begun hc]

/-- `S-PCK-DATA` takes the last pixel byte of a row and pushes it (R95). -/
theorem PackAt.copyLast (h : PackAt px o blk) (hc : 1 ≤ blk.col) (hw : blk.col = latchedByteWidth blk) {x : Byte}
    {q : List Byte}
    (hinv : PackRunningInv { blk with inQ := q, outQ := blk.outQ ++ [x], row := blk.row + 1, col := 0 }) :
    PackAt (px ++ [x]) (o ++ [x]) { blk with inQ := q, outQ := blk.outQ ++ [x], row := blk.row + 1, col := 0 } := by
  have hpx : (px ++ [x]).length = (blk.row + 1) * latchedByteWidth blk := by
    rw [List.length_append, h.pixels, Nat.add_assoc, List.length_singleton, Nat.sub_add_cancel hc, hw, Nat.succ_mul]
  refine ⟨h.st, hinv, hpx, ?_⟩
  change _ = pack (px ++ [x]) blk.a.toNat (blk.row + 1) blk.depth.toNat ++ []
  rw [← rowsSoFar_of_end hpx, rowsSoFar_snoc (h.pixels ▸ Nat.le_add_right ..), h.pushed_of_begun hc, List.append_nil]

/-- The queues are no part of a `PACK`'s progress. -/
theorem PackAt.with_queues (h : PackAt px o blk) (i q : List Byte) : PackAt px o { blk with inQ := i, outQ := q } :=
  ⟨h.st, { h.inv with }, h.pixels, h.pushed⟩

/-- An accepted `PACK` has taken and pushed nothing (R93). -/
theorem packAccept_packAt {width height : Word} {depth : Byte} (blk : Block)
    (hw : (Instr.pack width height depth).WellFormed) : PackAt [] [] (packAccept width height depth blk) :=
  ⟨rfl, packAccept_inv blk (packRefusal_eq_none_iff.mpr hw), (Nat.zero_mul _).symm, rfl⟩

/-- The bytes a running `PACK` has pushed are counted by its position (R97). -/
theorem pushedSoFar_of_pack (hop : blk.op = opPack) :
    pushedSoFar blk = blk.row * (latchedByteWidth blk + 1) + blk.col := by
  rw [pushedSoFar, hop, if_neg (by decide), if_pos rfl]

/-- Every byte step of a running `PACK` adds what it takes and pushes to its progress, and pushes one byte (R94, R95). -/
theorem PackAt.byte {d : Capacity} (h : PackAt px o blk) (hb : blk.row < blk.b.toNat)
    (hr : packRunning d blk = some blk') :
    pushedSoFar blk' = pushedSoFar blk + 1 ∧
      ∃ consumed pushed, StreamStep blk blk' consumed pushed ∧ PackAt (px ++ consumed) (o ++ pushed) blk' := by
  have hop : blk.op = opPack := h.inv.op
  have hinv : blk'.st = .busy → PackRunningInv blk' := fun hst =>
    (packRunning_inv h.inv hr).resolve_left (by simp [hst])
  rw [pushedSoFar_of_pack hop, pushedSoFar_of_pack ((packRunning_keeps hr).op.trans hop)]
  rcases (packRunning_cases hr).2 with ⟨_, hc, _, rfl⟩ | ⟨_, hc, _, _, x, q, hq, rfl⟩ |
    ⟨_, hc, hw, _, x, q, hq, rfl⟩ | ⟨he, _⟩
  · refine ⟨?_, [], _, .push rfl rfl, ?_⟩
    · rw [hc]
      rfl
    · rw [List.append_nil]
      exact h.filt hc (hinv h.st)
  · exact ⟨rfl, [x], [x], .copy h.st hq rfl, h.copy hc (hinv h.st)⟩
  · refine ⟨?_, [x], [x], .copy h.st hq rfl, h.copyLast hc hw (hinv h.st)⟩
    change (blk.row + 1) * (latchedByteWidth blk + 1) + 0 = _
    rw [hw, Nat.succ_mul]
    rfl
  · exact absurd he hb.ne

end

/-- While a `PACK` runs, the block's move is one of its three steps, or none. -/
theorem blockMove_of_pack {s t : State} (hst : s.block.st = .busy) (hop : s.block.op = opPack) (hm : BlockMove s t) :
    t = s ∨ ∃ blk, packRunning s.outDepth s.block = some blk ∧ t = withBlock s blk := by
  cases hm with
  | wait => exact .inl rfl
  | refuse _ _ hi | acceptCrc32 _ _ _ hi | acceptFrame _ _ _ hi | acceptPack _ _ _ _ hi => simp [hst] at hi
  | runPack blk _ hr => exact .inr ⟨blk, hr, rfl⟩
  | runCrc32 _ _ hr => exact absurd (hop.symm.trans (crc32Running_cases hr).1) (by decide)
  | runFrame _ _ hr => exact absurd (hop.symm.trans (frameRunning_cases hr).1) (by decide)

/-- Settles O27: of the block's moves the byte steps add to the progress and `S-PCK-DONE` completes; the host's moves
but a reset touch the queues alone. -/
theorem packProgressKept : Obligations.PackProgressKept := by
  intro s t px o h hs hnr
  rcases step_cases hs with ⟨rest, _, hm⟩ | ⟨m, rest, hsch, _, rfl⟩
  · rcases blockMove_of_pack (s := { s with schedule := rest }) h.st h.inv.op hm with rfl | ⟨blk, hr, rfl⟩
    · exact .inl ⟨[], [], [], by simp, by simp, by simp, by simp, by simpa using h, rfl, rfl, rfl⟩
    · have hr : packRunning s.outDepth s.block = some blk := hr
      rcases h.inv.row.lt_or_eq with hrow | hrow
      · obtain ⟨_, consumed, pushed, hstep, hat⟩ := h.byte hrow hr
        have hkeep := packRunning_keeps hr
        exact .inl ⟨consumed, [], pushed, hstep.consumed_le, hstep.pushed_le, (List.append_nil _).trans hstep.inQ,
          by simp [hstep.outQ], hat, hkeep.a, hkeep.b, hkeep.depth⟩
      · obtain rfl : pckDone s.block = blk := Option.some.inj ((packRunning_done h.inv.op hrow).symm.trans hr)
        exact .inr ⟨h.pixels_eq hrow, rfl, h.pushed_eq_pack hrow, rfl, rfl⟩
  · have hne := ne_reset_of_not_resetNext hsch hnr
    obtain ⟨offered, hlen, hin⟩ := hostMove_inStream hne { s with schedule := rest }
    have hout := hostMove_outStream hne { s with schedule := rest }
    have hblk := hostMove_block m { s with schedule := rest } hne
    refine .inl ⟨[], offered, [], by simpa using hlen, by simp, by simp [hin], by simp [hout], ?_, ?_, ?_, ?_⟩
    · rw [hblk, List.append_nil, List.append_nil]
      exact h.with_queues _ _
    · rw [hblk]
    · rw [hblk]
    · rw [hblk]

end Sys2Proof
end

section
/-! SUPPORT. A whole PACK, with nothing scheduled (spec/42_pack.md R92, R97, spec/70_reset_and_hazards.md R139). -/

namespace Sys2Proof

open Sys2Proof.Machine

/-- A running `PACK` has an enabled byte step where the byte fits OUT and, if it is a pixel byte, is on IN. -/
theorem exists_packRunning {d : Capacity} {blk : Block} (hi : PackRunningInv blk) (hr : blk.row < blk.b.toNat)
    (hq : 1 ≤ blk.col → blk.inQ ≠ []) (hf : Fits d (blk.outQ.length + 1)) : ∃ blk', packRunning d blk = some blk' := by
  rcases Nat.eq_zero_or_pos blk.col with hc | hc
  · exact ⟨_, packRunning_filt hi.op hr hc hf⟩
  · obtain ⟨x, q, hin⟩ := List.exists_cons_of_ne_nil (hq hc)
    exact ⟨_, packRunning_data hi.op hr hc hi.col hin hf⟩

/-- A step of a running `PACK` with nothing scheduled. -/
theorem step_of_packRunning {s : State} {blk : Block} (hs : s.schedule = []) (hst : s.block.st = .busy)
    (hr : packRunning s.outDepth s.block = some blk) : step s = .next (withBlock s blk) := by
  rw [step_of_schedule_nil hs,
    blockTurn_eq_exec_of_running hst (runningInstr_of_pack (packRunning_cases hr).1), exec_pack_of_running hst hr]

/-- How many bytes the rows of the `PACK` in progress are (R85, R92). -/
def rowBytes (blk : Block) : Nat := (latchedByteWidth blk + 1) * blk.b.toNat

/-- The last byte of the rows is pushed exactly with the last row (R96). -/
theorem PackRunningInv.pushedSoFar_lt_iff {blk : Block} (h : PackRunningInv blk) :
    pushedSoFar blk < rowBytes blk ↔ blk.row < blk.b.toNat := by
  rw [pushedSoFar_of_pack h.op, rowBytes]
  constructor
  · refine fun hlt => h.row.lt_of_ne fun he => hlt.ne ?_
    rw [h.last he, he, Nat.mul_comm, Nat.add_zero]
  · intro hr
    calc blk.row * (latchedByteWidth blk + 1) + blk.col < (blk.row + 1) * (latchedByteWidth blk + 1) := by
          rw [Nat.succ_mul]
          exact Nat.add_lt_add_left (Nat.lt_succ_of_le h.col) _
      _ ≤ blk.b.toNat * (latchedByteWidth blk + 1) := Nat.mul_le_mul_right _ hr
      _ = (latchedByteWidth blk + 1) * blk.b.toNat := Nat.mul_comm ..

/-- The block after a `PACK` whose pixel bytes were `px`, `rest` being what stays on IN and `queued` what stood on OUT
before. -/
def packEnd (blk : Block) (px rest queued : List Byte) : Block :=
  { blk with
    st := .idle
    row := blk.b.toNat
    col := 0
    inQ := rest
    outQ := queued ++ pack px blk.a.toNat blk.b.toNat blk.depth.toNat }

/-- `S-PCK-DONE` on a `PACK` that has pushed all its rows (R96, R97). -/
theorem PackAt.pckDone_eq {px o rest queued : List Byte} {blk : Block} (h : PackAt px o blk)
    (hr : blk.row = blk.b.toNat) (hin : blk.inQ = rest) (hout : blk.outQ = queued ++ o) :
    pckDone blk = packEnd blk px rest queued := by
  rw [packEnd, ← h.pushed_eq_pack hr, ← hout, ← hin, ← hr, ← h.inv.last hr]
  rfl

/-- Every step of the command leads to the same end. -/
theorem packEnd_of_packRunning {d : Capacity} {blk blk' : Block} (h : packRunning d blk = some blk')
    (px rest queued : List Byte) : packEnd blk' px rest queued = packEnd blk px rest queued := by
  rw [packRunning_eq_update h]
  rfl

/-- Of bytes `v` on IN, a step that takes no more than they are takes their beginning (R27). -/
theorem exists_split_of_streamStep {blk blk' : Block} {consumed pushed v rest : List Byte}
    (h : StreamStep blk blk' consumed pushed) (hin : blk.inQ = v ++ rest) (hle : consumed.length ≤ v.length) :
    ∃ v', v = consumed ++ v' ∧ blk'.inQ = v' ++ rest := by
  have hsplit : consumed ++ blk'.inQ = v ++ rest := h.inQ.symm.trans hin
  obtain ⟨v', rfl⟩ := List.prefix_of_prefix_length_le ⟨_, hsplit⟩ ⟨_, rfl⟩ hle
  exact ⟨v', rfl, List.append_cancel_left (hsplit.trans (List.append_assoc ..))⟩

/-- With the rest `v` of its pixel bytes on IN and room for a byte on OUT, a running `PACK` that has a row to push makes a
byte step, and what that step takes is the beginning of `v` (R97). -/
theorem PackAt.exists_byte {d : Capacity} {blk : Block} {px o v rest : List Byte} (h : PackAt px o blk)
    (hb : blk.row < blk.b.toNat) (hv : px.length + v.length = latchedByteWidth blk * blk.b.toNat)
    (hin : blk.inQ = v ++ rest) (hf : Fits d (blk.outQ.length + 1)) :
    ∃ blk' consumed v' pushed, packRunning d blk = some blk' ∧ pushedSoFar blk' = pushedSoFar blk + 1 ∧
      v = consumed ++ v' ∧ blk'.inQ = v' ++ rest ∧ blk'.outQ = blk.outQ ++ pushed ∧ pushed.length ≤ 1 ∧
      PackAt (px ++ consumed) (o ++ pushed) blk' := by
  have hlt := h.pixels_lt hb
  have hne : v ≠ [] := List.ne_nil_of_length_pos (by omega)
  obtain ⟨blk', hr⟩ := exists_packRunning h.inv hb (fun _ => hin ▸ List.append_ne_nil_of_left_ne_nil hne rest) hf
  obtain ⟨hpos, consumed, pushed, hstep, hat⟩ := h.byte hb hr
  have hle : consumed.length ≤ v.length := by
    have := hstep.consumed_le
    omega
  obtain ⟨v', hv', hin'⟩ := exists_split_of_streamStep hstep hin hle
  exact ⟨blk', consumed, v', pushed, hr, hpos, hv', hin', hstep.outQ, hstep.pushed_le, hat⟩

/-- A running `PACK` with the rest `v` of its pixel bytes on IN and room for the `k` bytes to come takes one step a byte
and one to complete (R97, R139). -/
theorem runSteps_pack (k : Nat) {s : State} {px o v rest queued : List Byte} (h : PackAt px o s.block)
    (hs : s.schedule = []) (hk : pushedSoFar s.block + k = rowBytes s.block)
    (hv : px.length + v.length = latchedByteWidth s.block * s.block.b.toNat)
    (hin : s.block.inQ = v ++ rest) (hout : s.block.outQ = queued ++ o)
    (hf : Fits s.outDepth (s.block.outQ.length + k)) :
    runSteps (k + 1) s = .next (withBlock s (packEnd s.block (px ++ v) rest queued)) := by
  have hlast := h.inv.pushedSoFar_lt_iff
  induction k generalizing s px o v with
  | zero =>
    have hr : s.block.row = s.block.b.toNat := by
      have := h.inv.row
      omega
    have hpx := h.pixels_eq hr
    obtain rfl : v = [] := List.eq_nil_of_length_eq_zero (by omega)
    rw [runSteps_succ (step_of_packRunning hs h.st (packRunning_done h.inv.op hr)), h.pckDone_eq hr hin hout,
      List.append_nil]
    rfl
  | succ k ih =>
    obtain ⟨blk, consumed, v', pushed, hr, hpos, rfl, hin', hout', hle, hat⟩ :=
      h.exists_byte (hlast.mp (by omega)) hv hin (fits_mono hf (by omega))
    obtain ⟨hbw, hbytes⟩ : latchedByteWidth blk * blk.b.toNat = latchedByteWidth s.block * s.block.b.toNat ∧
        rowBytes blk = rowBytes s.block := by
      rw [packRunning_eq_update hr]
      exact ⟨rfl, rfl⟩
    have hk' : pushedSoFar blk + k = rowBytes blk := by omega
    have hv' : (px ++ consumed).length + v'.length = latchedByteWidth blk * blk.b.toNat := by
      rw [hbw, ← hv, List.length_append, List.length_append, Nat.add_assoc]
    have hqueued : blk.outQ = queued ++ (o ++ pushed) := by rw [hout', hout, List.append_assoc]
    have hf' : Fits s.outDepth (blk.outQ.length + k) :=
      fits_mono hf (by rw [hout', List.length_append]; omega)
    rw [runSteps_succ (step_of_packRunning hs h.st hr),
      ih (s := withBlock s blk) hat hs hk' hv' hin' hqueued hf' hat.inv.pushedSoFar_lt_iff, List.append_assoc]
    exact congrArg (fun b => Host.Outcome.next (withBlock s b)) (packEnd_of_packRunning hr ..)

/-- Settles O24: the accept leaves a running `PACK` that has taken and pushed nothing, and `runSteps_pack` takes it to
its end. -/
theorem packCommandEmitsRows : Obligations.PackCommandEmitsRows := by
  intro s width height depth hs hst ho hw hlen hf
  have haccept : step s = .next (takeOffer s (packAccept width height depth s.block)) := by
    rw [step_of_schedule_nil hs, blockTurn_eq_exec_of_offer hst ho (decodeEncodeRoundTrip _), exec_pack_of_idle hst hw]
  have hat : PackAt [] [] (packAccept width height depth s.block) := packAccept_packAt s.block hw
  have hbegin : pushedSoFar (packAccept width height depth s.block) = 0 := by
    rw [pushedSoFar_of_pack rfl]
    exact Nat.zero_mul _
  have htake : (s.block.inQ.take (byteWidth width.toNat depth.toNat * height.toNat)).length =
      byteWidth width.toNat depth.toNat * height.toNat := List.length_take_of_le hlen
  have hrun := runSteps_pack (rowBytes (packAccept width height depth s.block))
    (s := takeOffer s (packAccept width height depth s.block)) hat hs (hbegin ▸ Nat.zero_add _)
    ((Nat.zero_add _).trans htake) (List.take_append_drop ..).symm (List.append_nil _).symm hf
  rw [Nat.add_assoc, Nat.add_comm 1, runSteps_succ haccept]
  exact hrun

end Sys2Proof
end

section
/-! SUPPORT. The file the host assembles (spec/43_encoder_context.md R103 to R108): its four chunks in a row, and their
lengths. -/

namespace Sys2Proof

open Sys2Proof.Machine

/-- A chunk is its payload and twelve bytes: three words around it (R69). -/
@[simp] theorem frame_length (tag : Word) (p : List Byte) : (frame tag p).length = 12 + p.length := by
  rw [frame, List.length_append, header_length, be32_length]
  omega

/-- The header chunk's payload is 13 bytes for every descriptor (R104). -/
@[simp] theorem ihdrPayload_length (img : ImageDescriptor) : (ihdrPayload img).length = 13 := rfl

/-- The check value of the end chunk, over the four bytes of its tag (R71, R107). -/
theorem crc32_tagIEND : crc32 0 (be32 tagIEND) = 0xAE426082 := by decide +kernel

/-- The end chunk, whose payload is empty, is twelve fixed bytes (R107). -/
theorem frame_tagIEND_nil : frame tagIEND [] =
    [0x00, 0x00, 0x00, 0x00, 0x49, 0x45, 0x4E, 0x44, 0xAE, 0x42, 0x60, 0x82] := by
  rw [emptyChunkIsTwelveBytes, crc32_tagIEND]
  rfl

/-- The chunks of the file, in the order of R108. -/
theorem pngFile_eq (img : ImageDescriptor) (z : List Byte) : pngFile img z =
    pngSignature ++ (frame tagIHDR (ihdrPayload img) ++ (frame tagPLTE pltePayload ++
      (frame tagIDAT z ++ frame tagIEND []))) := by
  simp only [pngFile, chunkList, List.flatMap_cons, List.flatMap_nil, List.append_nil]

/-- The signature, then 25, 15, `12 + len(z)` and 12 bytes of chunks. -/
theorem pngFile_length (img : ImageDescriptor) (z : List Byte) : (pngFile img z).length = 72 + z.length := by
  have hsignature : pngSignature.length = 8 := rfl
  have hpalette : pltePayload.length = 3 := rfl
  simp only [pngFile_eq, List.length_append, frame_length, ihdrPayload_length, hsignature, hpalette, List.length_nil]
  omega

/-- The file ends with the end chunk, whatever stands before it (R108). -/
theorem frame_tagIEND_suffix_pngFile (img : ImageDescriptor) (z : List Byte) : frame tagIEND [] <:+ pngFile img z := by
  rw [pngFile_eq, ← List.append_assoc, ← List.append_assoc, ← List.append_assoc]
  exact List.suffix_append ..

/-- Settles O60: the signature is the file's first part and the end chunk its last, and the lengths of the parts add up. -/
theorem pngFileShape : Obligations.PngFileShape := fun img z =>
  ⟨List.prefix_append .., frame_tagIEND_nil ▸ frame_tagIEND_suffix_pngFile img z, pngFile_length img z⟩

end Sys2Proof
end

section
/-! SUPPORT. What R52 decides of a descriptor on offer to an IDLE block, and the block's turn on it: the fault
(spec/60_exceptions.md R113 to R115) or the accept (R112). -/

namespace Sys2Proof

open Sys2Proof.Machine

/-- R52 refuses a descriptor at checks 1 to 4, which the decoder makes, or at checks 5 and 6, which `PACK` makes (log
entry 12). -/
theorem refusalCode_eq_some_iff {d : Descriptor} {c : FaultCode} :
    refusalCode d = some c ↔
      decode d = .error c ∨ ∃ w h dp, decode d = .ok (.pack w h dp) ∧ packRefusal w h dp = some c := by
  rw [refusalCode_eq]
  rcases decode d with e | (_ | _ | _) <;> simp

/-- R52 finds valid exactly the descriptors of the well-formed commands. -/
theorem refusalCode_eq_none_iff {d : Descriptor} :
    refusalCode d = none ↔ ∃ i, decode d = .ok i ∧ i.WellFormed := by
  rw [refusalCode_eq]
  rcases decode d with e | (_ | _ | _) <;> simp [packRefusal_eq_none_iff]

theorem packRefusal_of_not_mem {w h : Word} {dp : Byte} (hd : dp ∉ legalDepths) :
    packRefusal w h dp = some .badDepth :=
  if_pos (by simpa [legalDepths] using hd)

theorem packRefusal_of_mem {w h : Word} {dp : Byte} (hd : dp ∈ legalDepths) (hz : w = 0 ∨ h = 0) :
    packRefusal w h dp = some .badGeometry :=
  (if_neg (not_not.mpr (by simpa [legalDepths] using hd))).trans (if_pos hz)

section
variable {s : State} {d : Descriptor} {c : FaultCode}

theorem exec_pack_of_refused {w h : Word} {dp : Byte} (hst : s.block.st = .idle)
    (hr : packRefusal w h dp = some c) : exec (.pack w h dp) s = refuseOffer s c := by
  simp only [exec, execPack, commandStep, hst, packOffer, hr]

/-- `S-ACCEPT-FAULT`: whichever check of R52 refuses the offer, the block takes the fault (R114). -/
theorem blockTurn_of_refused (hst : s.block.st = .idle) (ho : s.offer = some d) (hc : refusalCode d = some c) :
    blockTurn s = refuseOffer s c := by
  rcases refusalCode_eq_some_iff.mp hc with hd | ⟨w, h, dp, hd, hr⟩
  · simp [blockTurn, hst, offerTurn, ho, hd]
  · rw [blockTurn_eq_exec_of_offer hst ho hd, exec_pack_of_refused hst hr]

/-- The block after `S-ACCEPT` of `d`, from the fields of `d` alone (R112, with R64, R76 and R93). -/
def acceptedBlock (d : Descriptor) (blk : Block) : Block :=
  { latch (fieldOp d) (fieldA d) (fieldB d) (fieldDepth d) (fieldFilter d) blk with
    acc := if fieldOp d = opCrc32 then fieldA d ^^^ crcMask else if fieldOp d = opFrame then crcMask else blk.acc
    rv := if fieldOp d = opCrc32 then false else blk.rv }

/-- `S-ACCEPT`: each command's own accept is the one read from the fields (R112). -/
theorem blockTurn_of_valid (hst : s.block.st = .idle) (ho : s.offer = some d) (hc : refusalCode d = none) :
    blockTurn s = .next (takeOffer s (acceptedBlock d s.block)) := by
  obtain ⟨i, hd, hw⟩ := refusalCode_eq_none_iff.mp hc
  rw [blockTurn_eq_exec_of_offer hst ho hd]
  obtain ⟨_, hf, ⟨hop, hdp, rfl⟩ | ⟨hop, hdp, rfl⟩ | ⟨hop, rfl⟩⟩ := decode_ok_cases hd
  · rw [exec_crc32_of_idle hst]
    simp [acceptedBlock, crc32Accept, hop, hdp, hf]
  · rw [exec_frame_of_idle hst]
    simp [acceptedBlock, frameAccept, hop, hdp, hf, show opFrame ≠ opCrc32 by decide]
  · rw [exec_pack_of_idle hst hw]
    simp [acceptedBlock, packAccept, latch, filterNone, hop, hf, show opPack ≠ opCrc32 by decide,
      show opPack ≠ opFrame by decide]

end

/-- Settles O4: `S-ACCEPT-FAULT` is the block's turn, whatever is scheduled. -/
theorem refusedDescriptorTakesFault : Obligations.RefusedDescriptorTakesFault := fun _ _ _ hst ho hc =>
  blockSteps_of_blockTurn fun _ => blockTurn_of_refused hst ho hc

/-- Settles O6: the block's turn is `exec` of the command on offer or in the latches, whatever is scheduled. -/
theorem stepRunsDecodedInstr : Obligations.StepRunsDecodedInstr := by
  intro s i h
  refine blockSteps_of_blockTurn fun rest => ?_
  rcases h with ⟨hst, d, ho, hd⟩ | ⟨hst, hi⟩
  · exact blockTurn_eq_exec_of_offer hst ho hd
  · exact blockTurn_eq_exec_of_running hst hi

/-- Settles O10: an illegal depth is refused before the geometry is looked at (R115). -/
theorem packIllegalOperandsFault : Obligations.PackIllegalOperandsFault := fun _ _ _ _ hst =>
  ⟨fun hd => exec_pack_of_refused hst (packRefusal_of_not_mem hd),
    fun hd hz => exec_pack_of_refused hst (packRefusal_of_mem hd hz)⟩

end Sys2Proof
end

section
/-! SUPPORT. Which steps can change `st` and the offer: none from BUSY enters FAULT, only a reset leaves FAULT, and an
offer waits while the block is not IDLE (spec/60_exceptions.md R116, R118; spec/10_state.md R12, R21). -/

namespace Sys2Proof

open Sys2Proof.Machine

section
variable {s t : State}

/-- In BUSY the block's move is a step of the command in progress, or none (R116, R117). -/
theorem blockMove_of_busy (hst : s.block.st = .busy) (hm : BlockMove s t) :
    t = s ∨ ∃ blk, RunKeeps s.outDepth s.block blk ∧ t = withBlock s blk := by
  cases hm with
  | wait => exact .inl rfl
  | refuse _ _ hi | acceptCrc32 _ _ _ hi | acceptFrame _ _ _ hi | acceptPack _ _ _ _ hi => simp [hst] at hi
  | runCrc32 blk _ hr => exact .inr ⟨blk, crc32Running_keeps _ hr, rfl⟩
  | runFrame blk _ hr => exact .inr ⟨blk, frameRunning_keeps hr, rfl⟩
  | runPack blk _ hr => exact .inr ⟨blk, packRunning_keeps hr, rfl⟩

/-- In FAULT the block has no move (R118). -/
theorem blockMove_of_fault (hst : s.block.st = .fault) (hm : BlockMove s t) : t = s := by
  cases hm with
  | wait => rfl
  | refuse _ _ hi | acceptCrc32 _ _ _ hi | acceptFrame _ _ _ hi | acceptPack _ _ _ _ hi | runCrc32 _ hi | runFrame _ hi
  | runPack _ hi => simp [hst] at hi

/-- Only a block in IDLE consumes the offer (R21). -/
theorem blockMove_offer (hst : s.block.st ≠ .idle) (hm : BlockMove s t) : t.offer = s.offer := by
  cases hm with
  | wait | runCrc32 | runFrame | runPack => rfl
  | refuse _ _ hi | acceptCrc32 _ _ _ hi | acceptFrame _ _ _ hi | acceptPack _ _ _ _ hi => exact absurd hi hst

end

/-- Of the host's moves only a reset withdraws an offer, and while there is one no other can be issued (R128, R141). -/
theorem hostMove_offer {m : HostMove} {s : State} {d : Descriptor} (hm : m ≠ .reset) (he : hostEnabled m s = true)
    (ho : s.offer = some d) : (hostMove m s).offer = some d := by
  cases m with
  | issue => simp [issue_enabled_iff.mp he] at ho
  | take =>
    obtain ⟨x, q, hq⟩ := take_enabled_iff.mp he
    simp [hostMove, hostTake_eq hq, ho]
  | reset => exact absurd rfl hm
  | offer | readStatus | readResult => exact ho

/-- Of the host's moves but a reset, only `H-TAKE` touches `out_q`, at its front (R28). -/
theorem hostMove_outQ_suffix {m : HostMove} (hm : m ≠ .reset) (s : State) :
    (hostMove m s).block.outQ <:+ s.block.outQ := by
  cases m with
  | take =>
    cases hq : s.block.outQ with
    | nil => simp [hostMove, hostTake_of_empty hq, hq]
    | cons x q => simp [hostMove, hostTake_eq hq]
  | reset => exact absurd rfl hm
  | issue | offer | readStatus | readResult => exact List.suffix_rfl

/-- Settles O5: in IDLE the block's turn is `S-ACCEPT`, whatever is scheduled; out of IDLE neither the block nor,
but for a reset, the host takes the offer away. -/
theorem validDescriptorIsAccepted : Obligations.ValidDescriptorIsAccepted := by
  intro s d ho
  refine ⟨fun hst hc => blockSteps_of_blockTurn fun _ => blockTurn_of_valid hst ho hc, fun hst t h hn => ?_⟩
  rcases step_cases h with ⟨rest, _, hm⟩ | ⟨m, rest, hs, he, rfl⟩
  · exact (blockMove_offer (s := { s with schedule := rest }) hst hm).trans ho
  · exact hostMove_offer (ne_reset_of_not_resetNext hs hn) ((hostEnabled_with_schedule m s rest).trans he) ho

/-- Settles O43: the block has no move, and of the host's but a reset `H-OFFER` and `H-TAKE` alone touch the queues. -/
theorem faultIsSticky : Obligations.FaultIsSticky := by
  intro s hst
  refine ⟨blockSteps_of_noBlockStep (.inr (.inl hst)), fun t h hn => ?_⟩
  rcases step_cases h with ⟨rest, _, hm⟩ | ⟨m, rest, hs, _, rfl⟩
  · obtain rfl := blockMove_of_fault (s := { s with schedule := rest }) hst hm
    exact ⟨rfl, List.prefix_rfl, List.suffix_rfl⟩
  · have hne := ne_reset_of_not_resetNext hs hn
    obtain ⟨_, _, hin⟩ := hostMove_inStream hne { s with schedule := rest }
    exact ⟨hostMove_block m _ hne, hin ▸ List.prefix_append .., hostMove_outQ_suffix hne _⟩

/-- Settles O44: the command in progress stays BUSY or ends in IDLE, a reset gives IDLE, and no other move touches
`st`. -/
theorem runningCommandCannotFault : Obligations.RunningCommandCannotFault := by
  intro s t hst h
  rcases step_cases h with ⟨rest, _, hm⟩ | ⟨m, rest, _, _, rfl⟩
  · rcases blockMove_of_busy (s := { s with schedule := rest }) hst hm with rfl | ⟨blk, hk, rfl⟩
    · simp [hst]
    · rcases hk.st with hkept | hidle
      · simp [hkept, hst]
      · simp [hidle]
  · by_cases hr : m = .reset
    · subst hr
      simp [hostMove]
    · rw [hostMove_block m _ hr]
      simp [hst]

end Sys2Proof
end

section
/-! SUPPORT. The reset event (spec/70_reset_and_hazards.md R128, R129), the host's moves on CMD, IN and OUT (R141), and
what becomes of an offer (R136). -/

namespace Sys2Proof

open Sys2Proof.Machine

/-- The free values a reset event leaves are all in elements that no step reads before the next accept (R22, R24). -/
theorem resetBlock_sameBlock_reset (k : Nat) : SameBlock (resetBlock k) Block.reset where
  st := rfl
  cause := rfl
  rv := rfl
  inQ := rfl
  outQ := rfl
  result := fun hv => by simp at hv
  latches := fun hst => by simp at hst
  acc := fun hst => by simp at hst

/-- The move of an IDLE block with an offer consumes it, and R52 decides whether by an accept or by the fault (R112,
R114). -/
theorem blockMove_consumes_offer {s t : State} {d : Descriptor} (hst : s.block.st = .idle) (ho : s.offer = some d)
    (hm : BlockMove s t) :
    t.offer = none ∧ (refusalCode d = none ∧ t.block.st = .busy ∨
      ∃ c, refusalCode d = some c ∧ t.block.st = .fault ∧ t.block.cause = c.code) := by
  cases hm with
  | wait h => simp [NoBlockStep, Waiting, hst, ho] at h
  | refuse d' c _ ho' hd =>
    obtain rfl : d' = d := Option.some.inj (ho'.symm.trans ho)
    exact ⟨rfl, .inr ⟨c, refusalCode_eq_some_iff.mpr hd, rfl, rfl⟩⟩
  | acceptCrc32 d' _ _ _ ho' hd | acceptFrame d' _ _ _ ho' hd =>
    obtain rfl : d' = d := Option.some.inj (ho'.symm.trans ho)
    exact ⟨rfl, .inl ⟨refusalCode_eq_none_iff.mpr ⟨_, hd, trivial⟩, rfl⟩⟩
  | acceptPack d' _ _ _ _ ho' hd hr =>
    obtain rfl : d' = d := Option.some.inj (ho'.symm.trans ho)
    exact ⟨rfl, .inl ⟨refusalCode_eq_none_iff.mpr ⟨_, hd, packRefusal_eq_none_iff.mp hr⟩, rfl⟩⟩
  | runCrc32 _ hb | runFrame _ hb | runPack _ hb => simp [hst] at hb

/-- Settles O49: out of IDLE the offer waits (O5); in IDLE the block's move consumes it, and no move of the host but a
reset touches it. -/
theorem offerIsNeverDropped : Obligations.OfferIsNeverDropped := by
  intro s t d ho h hn
  by_cases hst : s.block.st = .idle
  · rcases step_cases h with ⟨rest, _, hm⟩ | ⟨m, rest, hs, he, rfl⟩
    · exact .inr ⟨hst, blockMove_consumes_offer (s := { s with schedule := rest }) hst ho hm⟩
    · exact .inl (hostMove_offer (ne_reset_of_not_resetNext hs hn) ((hostEnabled_with_schedule m s rest).trans he) ho)
  · exact .inl ((validDescriptorIsAccepted s d ho).2 hst t h hn)

/-- Settles O51: a reset is enabled in every state, and `hostReset` is what it does. -/
theorem resetEventEffect : Obligations.ResetEventEffect := fun _ _ hs =>
  ⟨_, step_of_hostEnabled hs rfl, rfl, rfl, rfl, rfl, rfl, rfl, rfl, rfl, rfl, rfl, rfl, rfl, rfl⟩

/-- Settles O52: the block a reset leaves differs from `Block.reset` only where the host cannot tell. -/
theorem resetForgetsEverything : Obligations.ResetForgetsEverything := by
  rintro s t ⟨rest, hs⟩ h
  obtain rfl := Host.Outcome.next.inj ((step_of_hostEnabled hs rfl).symm.trans h)
  exact (resetBlock_sameBlock_reset s.draws).sameForHost (s := hostReset { s with schedule := rest })

/-- Settles O53: each of the three conditions is the one on which the move is enabled. -/
theorem hostDataMovesEffect : Obligations.HostDataMovesEffect := by
  intro s rest
  refine ⟨fun d hs ho => ?_, fun x hs hf => ?_, fun x q hs hq => ?_⟩
  · exact step_of_hostEnabled hs (issue_enabled_iff.mpr ho)
  · exact step_of_hostEnabled hs (offer_enabled_iff.mpr hf)
  · have htake := hostTake_eq (s := { s with schedule := rest }) hq
    exact (step_of_hostEnabled hs (take_enabled_iff.mpr ⟨x, q, hq⟩)).trans (congrArg _ htake)

end Sys2Proof
end
